-- ==== Sys2Proof/Word.lean ====
section
/-! DEFINITION. The word types of the block (00_scope.md R7, R10, R11): every value is unsigned, bit 0 is the
least significant bit, and every register has a fixed width of at most 8 bits. -/

namespace Sys2Proof

/-- An 8-bit value: MODE, ACC, OUT, a pattern-table entry, an event word (R7: `W_MODE`, `W_ACC`, `W_OUT`). -/
abbrev Byte := BitVec 8

/-- A 4-bit value: a BCD digit or the snake index (R7: `W_BCD`, `W_SIDX`). -/
abbrev Nibble := BitVec 4

/-- A 6-bit value: the queue index or the LFSR (R7: `W_QIDX`, `W_LFSR`). -/
abbrev Word6 := BitVec 6

end Sys2Proof
end

