-- ==== Sys2Proof/Config.lean ====
section
/-! DEFINITION. The parameters of the block (00_scope.md R7). The fixed ones are numbers; the OPEN ones have no
value here: each is an opaque constant, so no proof can lean on one. The machine takes them as data (the `params`
field and the two tables of `State`, set from these constants at reset), so every statement about a state is a
statement about every value of every OPEN parameter. `TICK_PERIOD` and `SETTLE_CYCLES` are unmodelled time (R268). -/

namespace Sys2Proof

/-- `GRAY_ORDER` (R7, D5): whether modes 3 and 4 output the accumulator after its update or before it. -/
inductive GrayOrder where
  | updateThenOutput
  | outputThenUpdate
  deriving DecidableEq, Repr, Inhabited

/-- The OPEN parameters that are not table contents, fixed for one block (R7). No step writes them. -/
structure Params where
  /-- `GRAY_ORDER` (D5). -/
  grayOrder : GrayOrder
  /-- `ATOMIC_MODE_CHANGE` (D10): a mode change and its ResetStates are one step with respect to the tick. -/
  atomicModeChange : Bool
  /-- `BTN_PREV_RESET.a` (D11): the level PREV_A holds after power-on. -/
  btnPrevResetA : Bool
  /-- `BTN_PREV_RESET.b` (D11): the level PREV_B holds after power-on. -/
  btnPrevResetB : Bool
  deriving DecidableEq, Repr, Inhabited

namespace Config

/-- `N_MODES` (R7). -/
abbrev nModes : Nat := 9

/-- `N_SNAKE`, the entries of the snake table (R7). -/
abbrev nSnake : Nat := 11

/-- `N_QUEUE`, the entries of the queue table (R7). -/
abbrev nQueue : Nat := 35

/-- `LFSR_SEED` (R7): 0b111001 = 57. -/
abbrev lfsrSeed : Word6 := 0b111001#6

/-- `SNAKE_TABLE` (R41, D4): OPEN, every entry an arbitrary byte. -/
opaque snakeTable : Fin nSnake → Byte

/-- `QUEUE_TABLE` (R42, D4): OPEN, every entry an arbitrary byte. -/
opaque queueTable : Fin nQueue → Byte

/-- `GRAY_ORDER` (R7, D5): OPEN. -/
opaque grayOrder : GrayOrder

/-- `ATOMIC_MODE_CHANGE` (R7, D10): OPEN. -/
opaque atomicModeChange : Bool

/-- `BTN_PREV_RESET.a` (R29, D11): OPEN. -/
opaque btnPrevResetA : Bool

/-- `BTN_PREV_RESET.b` (R29, D11): OPEN. -/
opaque btnPrevResetB : Bool

/-- The OPEN parameters as one record. -/
def params : Params where
  grayOrder := grayOrder
  atomicModeChange := atomicModeChange
  btnPrevResetA := btnPrevResetA
  btnPrevResetB := btnPrevResetB

end Config

end Sys2Proof
end

