-- ==== Sys2Proof/Syntax.lean ====
section
/-! DEFINITION. The operations of the block as syntax: one constructor per row of spec/opcode_table.json (nine tick
operations selected by MODE, 30_encoding.md R60; six environment events, R62), and the script lines of R70. -/

namespace Sys2Proof

/-- The two encodings of the block (30_encoding.md): a MODE register value, or an event word. -/
inductive Format where
  | mode
  | event
  deriving DecidableEq, Repr

/-- The fifteen operations of the opcode table. The tick operations have no operands (R60); of the events only
`POLL` has any (R64). -/
inductive Instr where
  /-- `TICK.INC`, MODE = 1 (R100). -/
  | tickInc
  /-- `TICK.DEC`, MODE = 2 (R101). -/
  | tickDec
  /-- `TICK.GRAY_UP`, MODE = 3 (R102). -/
  | tickGrayUp
  /-- `TICK.GRAY_DOWN`, MODE = 4 (R103). -/
  | tickGrayDown
  /-- `TICK.BCD_UP`, MODE = 5 (R120). -/
  | tickBcdUp
  /-- `TICK.BCD_DOWN`, MODE = 6 (R121). -/
  | tickBcdDown
  /-- `TICK.SNAKE`, MODE = 7 (R140). -/
  | tickSnake
  /-- `TICK.QUEUE`, MODE = 8 (R141). -/
  | tickQueue
  /-- `TICK.LFSR`, MODE = 9 (R160). -/
  | tickLfsr
  /-- `EXPIRE`, word 0x00: the periodic timer expires (R89). -/
  | expire
  /-- `POLL a, b`, word 0x40 + 2·b + a: one poll that samples level `a` on button A and `b` on button B, true = high
  (R190, R64). -/
  | poll (a b : Bool)
  /-- `RESET_STATES`, word 0x80: the environment's startup call (R182). -/
  | resetStates
  /-- `TICK_DISABLE`, word 0xC0 (R223). -/
  | tickDisable
  /-- `TICK_ENABLE`, word 0xC1 (R223). -/
  | tickEnable
  /-- `HWRESET`, word 0xC2: power-on reset (R260). -/
  | hwReset
  deriving DecidableEq, Repr

/-- Which encoding an operation is written in (R60, R62). -/
def Instr.format : Instr → Format
  | .tickInc | .tickDec | .tickGrayUp | .tickGrayDown | .tickBcdUp | .tickBcdDown | .tickSnake | .tickQueue
  | .tickLfsr => .mode
  | .expire | .poll _ _ | .resetStates | .tickDisable | .tickEnable | .hwReset => .event

/-- A script line (R70): an event under its own mnemonic, or a pseudo-instruction. -/
inductive ScriptLine where
  | event (i : Instr)
  | tick
  | ticks (n : Nat)
  | idle
  | pressA
  | pressB
  | pressAB
  | boot
  deriving DecidableEq, Repr

end Sys2Proof
end

