-- ==== Sys2Proof/Machine/State.lean ====
section
/-! DEFINITION. The machine's state (10_state.md R20-R38), every register of the spec under its own name, the two
pattern tables, the hidden foreground state of R36, the FAULT record of R37; and, the MODEL's own, the parameters of
this block and what the environment will do next (its event words and the order in which the agents move). -/

namespace Sys2Proof.Machine

/-- The two readable address spaces (20_memory.md R40). -/
inductive Rom where
  | snakeRom
  | queueRom
  deriving DecidableEq, Repr

/-- What a model fault is raised for (R37, R221). -/
inductive FaultReason where
  /-- MODE was 0 or 10..255. Raised by SERVICE (R86), MODE_NEXT (R193) and MODE_PREV (R194). -/
  | modeOutOfRange (m : Byte)
  /-- A table read beyond the table. Raised by modes 7 and 8 (R140, R141, R43). -/
  | indexOutOfRange (space : Rom) (i : Nat)
  deriving DecidableEq, Repr

/-- Why a step ends in a fault (R9). Both are SAFE: the model stops where the spec gives the machine no further
step. -/
inductive Fault where
  /-- The step raised a model fault. Raised by the operations that `FaultReason` names. -/
  | raised (r : FaultReason)
  /-- The FAULT record is not empty, so no step is enabled (R37). Raised by `step`, in such states only. -/
  | noStepEnabled
  deriving DecidableEq, Repr

/-- Why a step is refused (R9). Both are SAFE. -/
inductive Refusal where
  /-- The operation has no meaning in this model yet. Raised by an arm of `exec`; no arm does. -/
  | notModelled (mnemonic : String)
  /-- The environment delivered a reserved event word (R67). Raised by `step`. -/
  | reservedWord (w : Byte)
  deriving DecidableEq, Repr

/-- FAULT (R37): the sticky set of fault reasons and the sticky `REFUSED` mark. -/
structure FaultRecord where
  reasons : List FaultReason
  refused : Bool
  deriving DecidableEq, Repr

/-- The record at power-on (R37). -/
def FaultRecord.empty : FaultRecord := ⟨[], false⟩

/-- The names of the six ModeState registers (R28). -/
inductive ModeField where
  | acc
  | bcdU
  | bcdT
  | snakeIdx
  | queueIdx
  | lfsr
  deriving DecidableEq, Repr

/-- ModeState (R28): the per-mode registers, reset as one unit. -/
structure ModeState where
  /-- ACC (R22). -/
  acc : Byte
  /-- BCD_U (R23). -/
  bcdU : Nibble
  /-- BCD_T (R24). -/
  bcdT : Nibble
  /-- SNAKE_IDX (R25). -/
  snakeIdx : Nibble
  /-- QUEUE_IDX (R26). -/
  queueIdx : Word6
  /-- LFSR (R27). -/
  lfsr : Word6
  deriving DecidableEq, Repr

/-- ModeState at power-on and after ResetStates (R180, R260). -/
def ModeState.initial : ModeState :=
  { acc := 0#8, bcdU := 0#4, bcdT := 0#4, snakeIdx := 0#4, queueIdx := 0#6, lfsr := Config.lfsrSeed }

/-- The remaining part of a foreground operation in the split form (R36): present only while one is in progress. -/
structure Foreground where
  /-- The sampled levels (a, b) of a `POLL`; none for the startup `RESET_STATES`. -/
  levels : Option (Bool × Bool)
  /-- A press of button A remains to apply (MODE_NEXT). -/
  pressA : Bool
  /-- A press of button B remains to apply (MODE_PREV). -/
  pressB : Bool
  /-- The fields the current ResetStates has not yet written, no field twice. -/
  resetLeft : List ModeField
  deriving DecidableEq, Repr

/-- Which agent is to take the next step (R8), a choice the spec leaves free (R226). -/
inductive Turn where
  /-- The environment delivers its next event word. -/
  | environment
  /-- The tick agent takes SERVICE. -/
  | tick
  /-- The poll agent takes the next step of its operation; if that is a reset step, of the field `f` (R181). -/
  | foreground (f : ModeField)
  deriving DecidableEq, Repr

/-- The state of the block. -/
structure State where
  /-- MODE (R21). -/
  mode : Byte
  /-- ModeState: ACC, BCD_U, BCD_T, SNAKE_IDX, QUEUE_IDX, LFSR (R28). -/
  ms : ModeState
  /-- PREV_A (R29), true = high. -/
  prevA : Bool
  /-- PREV_B (R29), true = high. -/
  prevB : Bool
  /-- PEND, the tick pending flag (R30). -/
  pend : Bool
  /-- TEN, the tick interrupt enable (R31). -/
  ten : Bool
  /-- OUT (R32); none is the spec's own "unwritten". -/
  out : Option Byte
  /-- SNAKE_ROM (R33, R41). -/
  snakeRom : Vector Byte Config.nSnake
  /-- QUEUE_ROM (R33, R42). -/
  queueRom : Vector Byte Config.nQueue
  /-- The foreground operation in progress (R36). -/
  fore : Option Foreground
  /-- FAULT (R37). -/
  fault : FaultRecord
  /-- MODEL's own: the OPEN parameters of this block (R7); no step writes them. -/
  params : Params
  /-- MODEL's own: the event words the environment has yet to deliver, in order (a script, R70). -/
  script : List Byte
  /-- MODEL's own: who moves next, in order; when empty, the reference schedule of R71 decides. -/
  turns : List Turn
  deriving DecidableEq, Repr

/-- The state after power-on of a block with the given parameters and tables (R260, R261); nothing is to be
delivered. -/
def State.resetWith (p : Params) (snake : Vector Byte Config.nSnake) (queue : Vector Byte Config.nQueue) : State where
  mode := 1#8
  ms := ModeState.initial
  prevA := p.btnPrevResetA
  prevB := p.btnPrevResetB
  pend := false
  ten := false
  out := none
  snakeRom := snake
  queueRom := queue
  fore := none
  fault := FaultRecord.empty
  params := p
  script := []
  turns := []

/-- The state right after reset, of a block whose OPEN parameters are the constants of `Config` (R261). -/
def State.reset : State :=
  State.resetWith Config.params (Vector.ofFn Config.snakeTable) (Vector.ofFn Config.queueTable)

/-- The outcome of one step (R9). -/
abbrev Result := Host.Outcome State Fault Refusal

end Sys2Proof.Machine
end

