-- ==== Sys2Proof/Machine/Ops.lean ====
section
/-! DEFINITION. The named operations every meaning is built from: reading a table entry, writing the output latch,
raising a model fault and recording one, and what the output lines show (00_scope.md R12, 20_memory.md R40-R47). -/

namespace Sys2Proof.Machine

/-- A ModeState register read by its name, as an unsigned number (R12, R10). -/
def ModeState.read (f : ModeField) (ms : ModeState) : Nat :=
  match f with
  | .acc => ms.acc.toNat
  | .bcdU => ms.bcdU.toNat
  | .bcdT => ms.bcdT.toNat
  | .snakeIdx => ms.snakeIdx.toNat
  | .queueIdx => ms.queueIdx.toNat
  | .lfsr => ms.lfsr.toNat

/-- The entries of a table that exist, in index order (R40). -/
def State.romEntries (space : Rom) (s : State) : List Byte :=
  match space with
  | .snakeRom => s.snakeRom.toList
  | .queueRom => s.queueRom.toList

/-- `MemRead(space:i, 1)`: the entry at index `i`, or the fault of an index beyond the table (R41, R42, R43). -/
def memRead (space : Rom) (i : Nat) (s : State) : Except FaultReason Byte :=
  match (s.romEntries space)[i]? with
  | some v => .ok v
  | none => .error (.indexOutOfRange space i)

/-- `MemWrite(OUTBUS:0, 1, v)`: OUT takes the whole byte at once (R44). -/
def memWriteOut (v : Byte) (s : State) : State := { s with out := some v }

/-- What the environment sees on output line `i` (R45, R47): bit `i` of OUT, or nothing while OUT is unwritten. -/
def outputLine (i : Fin 8) (s : State) : Option Bool := s.out.map (fun v => v.getLsbD i.val)

/-- `raise Fault(reason)`: the step ends in the fault with no other write (R12). -/
def raise (r : FaultReason) : Result := .fault (.raised r)

/-- FAULT is a set: a reason already in it is not added again (R37). -/
def FaultRecord.add (r : FaultReason) (f : FaultRecord) : FaultRecord :=
  if r ∈ f.reasons then f else { f with reasons := f.reasons ++ [r] }

/-- FAULT is not empty (R37). -/
def FaultRecord.nonEmpty (f : FaultRecord) : Bool := f.refused || !f.reasons.isEmpty

/-- No step is enabled (R37). -/
def State.stopped (s : State) : Bool := s.fault.nonEmpty

/-- The state a step from `s` leaves, given its outcome (R9): a fault or a refusal is recorded in FAULT and changes no
other state (R67, R221). A step that was not enabled records nothing. -/
def State.after (s : State) : Result → State
  | .next t => t
  | .fault (.raised r) => { s with fault := s.fault.add r }
  | .fault .noStepEnabled => s
  | .refused _ => { s with fault := { s.fault with refused := true } }

/-- MODE holds a mode: 1..9 (R21). -/
def legalMode (m : Byte) : Bool := decide (1 ≤ m.toNat ∧ m.toNat ≤ Config.nModes)

end Sys2Proof.Machine
end

