-- ==== Sys2Proof/Machine/Flags.lean ====
section
/-! DEFINITION. The block's one status flag and its enable (10_state.md R30, R31): PEND is set by an expiry and cleared
by a tick, TEN is written by the foreground. There are no condition codes (R35). -/

namespace Sys2Proof.Machine

/-- `PEND <- 1` (R89). -/
def setPend (s : State) : State := { s with pend := true }

/-- `PEND <- 0` (R81). -/
def clearPend (s : State) : State := { s with pend := false }

/-- `TEN <- v` (R223). -/
def setTen (v : Bool) (s : State) : State := { s with ten := v }

/-- SERVICE is enabled exactly when PEND = 1, TEN = 1 and FAULT is empty (R80). -/
def State.serviceEnabled (s : State) : Bool := s.pend && s.ten && !s.stopped

/-- The end of every tick, given its output and the new ModeState (R81): the ModeState fields, then OUT, then the
clear of PEND. Taking a tick saves nothing and there is nothing to return from (R227, R228). -/
def completeTick (r : Byte × ModeState) (s : State) : State :=
  clearPend (memWriteOut r.1 { s with ms := r.2 })

end Sys2Proof.Machine
end

