-- ==== Sys2Proof/Machine/Accumulator.lean ====
section
/-! DEFINITION. Modes 1 to 4 (41_accumulator_modes.md): binary and Gray-coded up and down counters on ACC. -/

namespace Sys2Proof.Machine

/-- The Gray code of an 8-bit value (R104). -/
def gray (a : Byte) : Byte := a ^^^ (a >>> 1)

/-- `RULE[1]`: the output is ACC before the increment (R100). -/
def incRule (ms : ModeState) : Byte × ModeState := (ms.acc, { ms with acc := ms.acc + 1#8 })

/-- `RULE[2]`: the output is ACC before the decrement (R101). -/
def decRule (ms : ModeState) : Byte × ModeState := (ms.acc, { ms with acc := ms.acc - 1#8 })

/-- A Gray-coded tick that takes ACC from `old` to `new` outputs the code of the one `GRAY_ORDER` names (R102,
R103). -/
def grayRule (order : GrayOrder) (new : Byte) (ms : ModeState) : Byte × ModeState :=
  match order with
  | .updateThenOutput => (gray new, { ms with acc := new })
  | .outputThenUpdate => (gray ms.acc, { ms with acc := new })

/-- `RULE[3]` (R102). -/
def grayUpRule (order : GrayOrder) (ms : ModeState) : Byte × ModeState := grayRule order (ms.acc + 1#8) ms

/-- `RULE[4]` (R103). -/
def grayDownRule (order : GrayOrder) (ms : ModeState) : Byte × ModeState := grayRule order (ms.acc - 1#8) ms

/-- `TICK.INC` (R100, R81). -/
def execTickInc (s : State) : Result := .next (completeTick (incRule s.ms) s)

/-- `TICK.DEC` (R101, R81). -/
def execTickDec (s : State) : Result := .next (completeTick (decRule s.ms) s)

/-- `TICK.GRAY_UP` (R102, R81). -/
def execTickGrayUp (s : State) : Result := .next (completeTick (grayUpRule s.params.grayOrder s.ms) s)

/-- `TICK.GRAY_DOWN` (R103, R81). -/
def execTickGrayDown (s : State) : Result := .next (completeTick (grayDownRule s.params.grayOrder s.ms) s)

end Sys2Proof.Machine
end

