-- ==== Sys2Proof/Machine/Bcd.lean ====
section
/-! DEFINITION. Modes 5 and 6 (42_bcd_modes.md): a two-digit decimal counter on BCD_U and BCD_T. -/

namespace Sys2Proof.Machine

/-- The packed output: tens in bits 7:4, units in bits 3:0 (R124). -/
def bcd (t u : Nibble) : Byte := t.setWidth 8 <<< 4 ||| u.setWidth 8

/-- The digits after a step of mode 5 (R120). -/
def bcdUpDigits (ms : ModeState) : ModeState :=
  let u := ms.bcdU.toNat + 1
  if u > 9 then { ms with bcdU := 0#4, bcdT := BitVec.ofNat 4 ((ms.bcdT.toNat + 1) % 10) }
  else { ms with bcdU := BitVec.ofNat 4 u }

/-- The digits after a step of mode 6 (R121). -/
def bcdDownDigits (ms : ModeState) : ModeState :=
  if ms.bcdU == 0#4 then { ms with bcdU := 9#4, bcdT := if ms.bcdT == 0#4 then 9#4 else ms.bcdT - 1#4 }
  else { ms with bcdU := ms.bcdU - 1#4 }

/-- Both rules output the updated digits (R120, R121). -/
def packDigits (ms : ModeState) : Byte × ModeState := (bcd ms.bcdT ms.bcdU, ms)

/-- `RULE[5]` (R120). -/
def bcdUpRule (ms : ModeState) : Byte × ModeState := packDigits (bcdUpDigits ms)

/-- `RULE[6]` (R121). -/
def bcdDownRule (ms : ModeState) : Byte × ModeState := packDigits (bcdDownDigits ms)

/-- `TICK.BCD_UP` (R120, R81). -/
def execTickBcdUp (s : State) : Result := .next (completeTick (bcdUpRule s.ms) s)

/-- `TICK.BCD_DOWN` (R121, R81). -/
def execTickBcdDown (s : State) : Result := .next (completeTick (bcdDownRule s.ms) s)

end Sys2Proof.Machine
end

