-- ==== Sys2Proof/Machine/Lfsr.lean ====
section
/-! DEFINITION. Mode 9 (44_lfsr_mode.md): one step of the 6-bit Fibonacci LFSR. -/

namespace Sys2Proof.Machine

/-- The next value of the register: shift right, and bit 5 becomes the exclusive or of bits 5 and 4 (R160). -/
def lfsrNext (l : Word6) : Word6 :=
  let nb := l.getLsbD 5 ^^ l.getLsbD 4
  ((l >>> 1) ||| ((BitVec.ofBool nb).setWidth 6 <<< 5)) &&& 0b111111#6

/-- `RULE[9]`: the output is the updated register with zeros above (R160). -/
def lfsrRule (ms : ModeState) : Byte × ModeState :=
  let l := lfsrNext ms.lfsr
  (l.setWidth 8, { ms with lfsr := l })

/-- `TICK.LFSR` (R160, R81). -/
def execTickLfsr (s : State) : Result := .next (completeTick (lfsrRule s.ms) s)

end Sys2Proof.Machine
end

