-- ==== Sys2Proof/Machine/Operands.lean ====
section
/-! DEFINITION. The operand form of the block: the two sampled button levels of a `POLL` (30_encoding.md R64) against
the levels of the poll before, and what press they show (46_mode_selector.md R192). -/

namespace Sys2Proof.Machine

/-- A press: the previous level was high and the current level is low (R192). -/
def pressed (prev level : Bool) : Bool := prev && !level

/-- `edgeA` of a poll that samples `a` (R190). -/
def State.edgeA (s : State) (a : Bool) : Bool := pressed s.prevA a

/-- `edgeB` of a poll that samples `b` (R190). -/
def State.edgeB (s : State) (b : Bool) : Bool := pressed s.prevB b

/-- `PREV_A <- a; PREV_B <- b` (R196). -/
def rememberLevels (a b : Bool) (s : State) : State := { s with prevA := a, prevB := b }

end Sys2Proof.Machine
end

