-- ==== Sys2Proof/Machine/ResetStates.lean ====
section
/-! DEFINITION. ResetStates (45_reset_states.md): the six writes in one step, or, in the split form, one by one by the
foreground; and the startup event that calls it. -/

namespace Sys2Proof.Machine

/-- One write of ResetStates: the field takes its reset value (R180). -/
def ModeState.resetField (f : ModeField) (ms : ModeState) : ModeState :=
  match f with
  | .acc => { ms with acc := 0#8 }
  | .bcdU => { ms with bcdU := 0#4 }
  | .bcdT => { ms with bcdT := 0#4 }
  | .snakeIdx => { ms with snakeIdx := 0#4 }
  | .queueIdx => { ms with queueIdx := 0#6 }
  | .lfsr => { ms with lfsr := Config.lfsrSeed }

/-- The six fields in the order R180 lists them. -/
def resetFields : List ModeField := [.acc, .bcdU, .bcdT, .snakeIdx, .queueIdx, .lfsr]

/-- ResetStates, atomic form: all six writes in one step (R180). -/
def resetAll (s : State) : State := { s with ms := ModeState.initial }

/-- The startup call in progress: nothing but the six writes remains (R36, R182). -/
def startupOperation : Foreground := { levels := none, pressA := false, pressB := false, resetLeft := resetFields }

/-- `RESET_STATES` (R182): the atomic reset, or the start of the split one (R181). -/
def execResetStates (s : State) : Result :=
  .next (if s.params.atomicModeChange then resetAll s else { s with fore := some startupOperation })

end Sys2Proof.Machine
end

