-- ==== Sys2Proof/Machine/ModeSelector.lean ====
section
/-! DEFINITION. The mode selector (46_mode_selector.md): one poll in one step, or, in the split form, the poll's start
and the steps of its reaction (R197). -/

namespace Sys2Proof.Machine

/-- The mode after `m` (R193). -/
def nextMode (m : Byte) : Byte := if m == 9#8 then 1#8 else m + 1#8

/-- The mode before `m` (R194). -/
def prevMode (m : Byte) : Byte := if m == 1#8 then 9#8 else m - 1#8

/-- The first write of MODE_NEXT and MODE_PREV, one 8-bit write (R193, R194). -/
def writeMode (m : Byte) (s : State) : State := { s with mode := m }

/-- MODE_NEXT with its ResetStates in one step, MODE being legal (R193). -/
def modeNext (s : State) : State := resetAll (writeMode (nextMode s.mode) s)

/-- MODE_PREV with its ResetStates in one step, MODE being legal (R194). -/
def modePrev (s : State) : State := resetAll (writeMode (prevMode s.mode) s)

/-- The reaction of a poll in one step, MODE being legal or no press shown (R190): the press of A, then the press of B
(R195), then the levels (R196). -/
def pollReaction (a b : Bool) (s : State) : State :=
  let s1 := if s.edgeA a then modeNext s else s
  let s2 := if s.edgeB b then modePrev s1 else s1
  rememberLevels a b s2

/-- The poll in progress, in the split form (R36, R197). -/
def pollOperation (a b : Bool) (s : State) : Foreground :=
  { levels := some (a, b), pressA := s.edgeA a, pressB := s.edgeB b, resetLeft := [] }

/-- A one-step poll raises `ModeOutOfRange` when it shows a press and MODE is no mode (R193, R194, R221). MODE_NEXT
leaves a legal MODE, so the check of MODE_PREV after it adds nothing. -/
def pollFaults (a b : Bool) (s : State) : Bool :=
  !legalMode s.mode && (s.params.atomicModeChange && (s.edgeA a || s.edgeB b))

/-- `POLL a, b` (R190): the whole reaction, or the start of the split one (R197). -/
def execPoll (a b : Bool) (s : State) : Result :=
  if pollFaults a b s then raise (.modeOutOfRange s.mode)
  else .next (if s.params.atomicModeChange then pollReaction a b s else { s with fore := some (pollOperation a b s) })

/-- Nothing of the operation remains. -/
def Foreground.done (op : Foreground) : Bool :=
  op.levels.isNone && !op.pressA && !op.pressB && op.resetLeft.isEmpty

/-- Put back what remains of the operation; when nothing does, the foreground is free (R200). -/
def holdForeground (op : Foreground) (s : State) : State := { s with fore := if op.done then none else some op }

/-- The step of the split form that writes MODE; its ResetStates is then to do (R197). -/
def pressStep (m : Byte) (op : Foreground) (s : State) : Result :=
  if legalMode s.mode then .next (holdForeground { op with resetLeft := resetFields } (writeMode m s))
  else raise (.modeOutOfRange s.mode)

/-- The next step of an operation in progress (R197): while a reset is under way, the write of field `f`, if it is
still to do (R181); else the MODE write of the press of A, then of B; else the write of the levels. Where `f` is not
to do, that step is not enabled. -/
def foregroundStep (f : ModeField) (op : Foreground) (s : State) : Option Result :=
  if op.resetLeft ≠ [] then
    if f ∈ op.resetLeft then
      some (.next (holdForeground { op with resetLeft := op.resetLeft.erase f } { s with ms := s.ms.resetField f }))
    else none
  else if op.pressA then some (pressStep (nextMode s.mode) { op with pressA := false } s)
  else if op.pressB then some (pressStep (prevMode s.mode) { op with pressB := false } s)
  else
    match op.levels with
    | some (a, b) => some (.next (holdForeground { op with levels := none } (rememberLevels a b s)))
    | none => some (.next (holdForeground op s))

end Sys2Proof.Machine
end

