-- ==== Sys2Proof/Machine/Platform.lean ====
section
/-! DEFINITION. The timer, its enable and power-on (40_tick_handler.md R89, 60_exceptions.md R223,
70_reset_and_hazards.md R260). -/

namespace Sys2Proof.Machine

/-- Power-on: every register of R260 at its reset value, whatever was in progress discarded. The tables, the
parameters and the FAULT record are kept (R260, R37). -/
def powerOn (s : State) : State :=
  { s with
    mode := 1#8, ms := ModeState.initial
    prevA := s.params.btnPrevResetA, prevB := s.params.btnPrevResetB
    pend := false, ten := false, out := none, fore := none }

/-- `EXPIRE` (R89): the flag is one bit, so expiries merge (R90). -/
def execExpire (s : State) : Result := .next (setPend s)

/-- `TICK_DISABLE` (R223). -/
def execTickDisable (s : State) : Result := .next (setTen false s)

/-- `TICK_ENABLE` (R223). -/
def execTickEnable (s : State) : Result := .next (setTen true s)

/-- `HWRESET` (R260). -/
def execHwReset (s : State) : Result := .next (powerOn s)

end Sys2Proof.Machine
end

