-- ==== Sys2Proof/Machine/Table.lean ====
section
/-! DEFINITION. Modes 7 and 8 (43_table_modes.md): playback of a pattern table through an index that wraps. -/

namespace Sys2Proof.Machine

/-- The index after `i` in a table of `n` entries (R140, R141). -/
def nextIndex (n i : Nat) : Nat := if i + 1 = n then 0 else i + 1

/-- `RULE[7]`: output the current entry, then advance; an index beyond the table faults (R140). -/
def snakeRule (s : State) : Except FaultReason (Byte × ModeState) :=
  let i := s.ms.snakeIdx.toNat
  match memRead .snakeRom i s with
  | .ok v => .ok (v, { s.ms with snakeIdx := BitVec.ofNat 4 (nextIndex Config.nSnake i) })
  | .error r => .error r

/-- `RULE[8]` (R141). -/
def queueRule (s : State) : Except FaultReason (Byte × ModeState) :=
  let i := s.ms.queueIdx.toNat
  match memRead .queueRom i s with
  | .ok v => .ok (v, { s.ms with queueIdx := BitVec.ofNat 6 (nextIndex Config.nQueue i) })
  | .error r => .error r

/-- The tick of a table mode: complete it, or raise the fault of its read (R81, R43). -/
def tableTick (r : Except FaultReason (Byte × ModeState)) (s : State) : Result :=
  match r with
  | .ok x => .next (completeTick x s)
  | .error e => raise e

/-- `TICK.SNAKE` (R140, R81). -/
def execTickSnake (s : State) : Result := tableTick (snakeRule s) s

/-- `TICK.QUEUE` (R141, R81). -/
def execTickQueue (s : State) : Result := tableTick (queueRule s) s

end Sys2Proof.Machine
end

