-- ==== Sys2Proof/Machine/Dispatch.lean ====
section
/-! DEFINITION. The meaning of every operation of the opcode table, one arm each. -/

namespace Sys2Proof.Machine

def exec (i : Instr) (s : State) : Host.Outcome State Fault Refusal :=
  match i with
  | .tickInc => Sys2Proof.Machine.execTickInc s
  | .tickDec => Sys2Proof.Machine.execTickDec s
  | .tickGrayUp => Sys2Proof.Machine.execTickGrayUp s
  | .tickGrayDown => Sys2Proof.Machine.execTickGrayDown s
  | .tickBcdUp => Sys2Proof.Machine.execTickBcdUp s
  | .tickBcdDown => Sys2Proof.Machine.execTickBcdDown s
  | .tickSnake => Sys2Proof.Machine.execTickSnake s
  | .tickQueue => Sys2Proof.Machine.execTickQueue s
  | .tickLfsr => Sys2Proof.Machine.execTickLfsr s
  | .expire => Sys2Proof.Machine.execExpire s
  | .poll a b => Sys2Proof.Machine.execPoll a b s
  | .resetStates => Sys2Proof.Machine.execResetStates s
  | .tickDisable => Sys2Proof.Machine.execTickDisable s
  | .tickEnable => Sys2Proof.Machine.execTickEnable s
  | .hwReset => Sys2Proof.Machine.execHwReset s

end Sys2Proof.Machine
end

