-- ==== Sys2Proof/WellFormed.lean ====
section
/-! DEFINITION. What well-formed syntax is. Operands need no check (the two levels of `POLL` are single bits); what
can be ill-formed is an operation written in the wrong encoding and a script line that R70 does not spell. -/

namespace Sys2Proof

/-- The operation has a spelling in encoding `f`: a tick operation is a MODE value and no event word (R60, R69), an
event is an event word and no MODE value (R62). -/
def Instr.wfIn (f : Format) (i : Instr) : Bool := i.format == f

/-- The line is one of R70: `TICKS n` has n ≥ 1, and a plain line is an event (no line spells a tick operation). -/
def ScriptLine.wf : ScriptLine → Bool
  | .event i => i.wfIn .event
  | .ticks n => decide (1 ≤ n)
  | .tick | .idle | .pressA | .pressB | .pressAB | .boot => true

end Sys2Proof
end

