-- ==== Sys2Proof/Decode.lean ====
section
/-! DEFINITION. The two decoders (30_encoding.md R60, R62, R68), each the rows of spec/opcode_table.json as data and
total on every byte, rejecting by name; then the encoder, and the reading of one opcode-table word. -/

namespace Sys2Proof

/-- Why a byte spells no operation. -/
inductive Reject where
  /-- The event word is reserved (R67). -/
  | reserved (w : Byte)
  /-- The MODE value selects no tick operation (R61). -/
  | modeOutOfRange (m : Byte)
  deriving DecidableEq, Repr

/-- One row of the opcode table: the byte `w` hits it when `w & mask == value`. -/
structure OpRow where
  mask : Byte
  value : Byte
  /-- The operation, its operand bits read from the byte. -/
  instr : Byte → Instr

/-- The byte matches the row's pattern. -/
def OpRow.hits (r : OpRow) (w : Byte) : Bool := (w &&& r.mask) == r.value

/-- The operation of the first row the byte hits. -/
def lookup (rows : List OpRow) (w : Byte) : Option Instr :=
  (rows.find? (fun r => r.hits w)).map (fun r => r.instr w)

/-- The nine MODE rows (R60). -/
def modeRows : List OpRow :=
  [ ⟨0xFF#8, 0x01#8, fun _ => .tickInc⟩,
    ⟨0xFF#8, 0x02#8, fun _ => .tickDec⟩,
    ⟨0xFF#8, 0x03#8, fun _ => .tickGrayUp⟩,
    ⟨0xFF#8, 0x04#8, fun _ => .tickGrayDown⟩,
    ⟨0xFF#8, 0x05#8, fun _ => .tickBcdUp⟩,
    ⟨0xFF#8, 0x06#8, fun _ => .tickBcdDown⟩,
    ⟨0xFF#8, 0x07#8, fun _ => .tickSnake⟩,
    ⟨0xFF#8, 0x08#8, fun _ => .tickQueue⟩,
    ⟨0xFF#8, 0x09#8, fun _ => .tickLfsr⟩ ]

/-- The six event rows, in the decoder's order (R62, R68). Bit 0 of a `POLL` word is `a`, bit 1 is `b` (R64). -/
def eventRows : List OpRow :=
  [ ⟨0xFF#8, 0x00#8, fun _ => .expire⟩,
    ⟨0xFC#8, 0x40#8, fun w => .poll (w.getLsbD 0) (w.getLsbD 1)⟩,
    ⟨0xFF#8, 0x80#8, fun _ => .resetStates⟩,
    ⟨0xFF#8, 0xC0#8, fun _ => .tickDisable⟩,
    ⟨0xFF#8, 0xC1#8, fun _ => .tickEnable⟩,
    ⟨0xFF#8, 0xC2#8, fun _ => .hwReset⟩ ]

/-- The tick operation a MODE value selects, or that it selects none (R60, R61). -/
def decodeMode (m : Byte) : Except Reject Instr :=
  match lookup modeRows m with
  | some i => .ok i
  | none => .error (.modeOutOfRange m)

/-- The event an event word spells, or that it is reserved (R62, R67, R68). -/
def decodeEvent (w : Byte) : Except Reject Instr :=
  match lookup eventRows w with
  | some i => .ok i
  | none => .error (.reserved w)

/-- The byte under either encoding: an event word first, then a MODE value. The rows of the two encodings do not
overlap, so the order decides nothing. -/
def decode (w : Byte) : Except Reject Instr :=
  match decodeEvent w with
  | .ok i => .ok i
  | .error e =>
    match decodeMode w with
    | .ok i => .ok i
    | .error _ => .error e

/-- The `ARG` bits of `POLL a, b`: `2·b + a` (R62, R64). -/
def pollArg (a b : Bool) : Byte :=
  (BitVec.ofBool b).setWidth 8 <<< 1 ||| (BitVec.ofBool a).setWidth 8

/-- The byte of an operation: its MODE value (R60) or its event word (R62). -/
def encode : Instr → Byte
  | .tickInc => 0x01#8
  | .tickDec => 0x02#8
  | .tickGrayUp => 0x03#8
  | .tickGrayDown => 0x04#8
  | .tickBcdUp => 0x05#8
  | .tickBcdDown => 0x06#8
  | .tickSnake => 0x07#8
  | .tickQueue => 0x08#8
  | .tickLfsr => 0x09#8
  | .expire => 0x00#8
  | .poll a b => 0x40#8 ||| pollArg a b
  | .resetStates => 0x80#8
  | .tickDisable => 0xC0#8
  | .tickEnable => 0xC1#8
  | .hwReset => 0xC2#8

/-- The byte that an opcode-table word of `nbits` bits is: bits at and above `nbits` are 0. Every row of this table
is one byte wide. -/
def tableByte (nbits w : Nat) : Byte := BitVec.ofNat 8 (w % 2 ^ nbits)

/-- The operation the decoder reads from an opcode-table word. -/
def decodeTableWord (nbits w : Nat) : Option Instr := (decode (tableByte nbits w)).toOption

end Sys2Proof
end

