-- ==== Sys2Proof/Machine/Schedule.lean ====
section
/-! DEFINITION. Which step is taken next (00_scope.md R8, 60_exceptions.md R226, 30_encoding.md R71). The spec lets any
enabled step go first; the choice is the data in `turns`, and when that is empty the reference schedule decides. -/

namespace Sys2Proof.Machine

/-- The operation is a foreground event, which waits until the foreground is free (R200). `EXPIRE` and `HWRESET`
interleave with the foreground. -/
def isForegroundEvent : Instr → Bool
  | .poll _ _ | .resetStates | .tickDisable | .tickEnable => true
  | .expire | .hwReset => false
  | .tickInc | .tickDec | .tickGrayUp | .tickGrayDown | .tickBcdUp | .tickBcdDown | .tickSnake | .tickQueue
  | .tickLfsr => false

/-- The event can be taken now, FAULT being empty (R89, R182, R190, R200, R223, R260). -/
def eventEnabled (i : Instr) (s : State) : Bool := !isForegroundEvent i || s.fore.isNone

/-- The reference schedule (R71): the foreground operation in progress first, then the tick, then the next event.
DESIGN CHOICE (log entry 1), where R71 says nothing: a reset's fields go in the listed order; before a script's FIRST
event an operation already in progress is completed and a tick already due is taken; with nothing to do, no one
moves. -/
def referenceTurn (s : State) : Option Turn :=
  match s.fore with
  | some op => some (.foreground (op.resetLeft.headD .acc))
  | none => if s.serviceEnabled then some .tick else if s.script.isEmpty then none else some .environment

/-- Who moves, and the state with that choice consumed. -/
def nextTurn (s : State) : Option Turn × State :=
  match s.turns with
  | t :: ts => (some t, { s with turns := ts })
  | [] => (referenceTurn s, s)

/-- What one step does. -/
inductive Action where
  /-- No agent's step is taken: there is nothing to do, or the turn named a step that is not enabled. -/
  | idle
  /-- The event `i` is delivered. -/
  | event (i : Instr)
  /-- A reserved event word is delivered (R67). -/
  | reserved (w : Byte)
  /-- The tick agent takes SERVICE (R80). -/
  | service
  /-- The poll agent takes the next step of `op` (R197). -/
  | foreground (f : ModeField) (op : Foreground)
  deriving DecidableEq, Repr

/-- The environment's turn: its next word is taken from the script and delivered; a foreground event stays there until
the foreground is free (R200). -/
def environmentTurn (s : State) : Action × State :=
  match s.script with
  | [] => (.idle, s)
  | w :: ws =>
    match decodeEvent w with
    | .error _ => (.reserved w, { s with script := ws })
    | .ok i => if eventEnabled i s then (.event i, { s with script := ws }) else (.idle, s)

/-- What the agent whose turn it is does. -/
def turnAction (t : Turn) (s : State) : Action × State :=
  match t with
  | .environment => environmentTurn s
  | .tick => if s.serviceEnabled then (.service, s) else (.idle, s)
  | .foreground f =>
    match s.fore with
    | some op => (.foreground f op, s)
    | none => (.idle, s)

/-- The next step of a state with FAULT empty: what is done, and the state it is done in. -/
def nextAction (s : State) : Action × State :=
  match nextTurn s with
  | (some t, s1) => turnAction t s1
  | (none, s1) => (.idle, s1)

end Sys2Proof.Machine
end

