-- ==== Sys2Proof/Machine/Agents.lean ====
section
/-! DEFINITION. The steps of the three agents (00_scope.md R8): SERVICE, which reads MODE and runs the tick operation it
selects (40_tick_handler.md R81), the delivery of an event, and a step of the foreground's split operation. -/

namespace Sys2Proof.Machine

/-- SERVICE (R81): the tick operation that MODE selects, or the fault of a MODE that selects none (R86). -/
def service (s : State) : Result :=
  match decodeMode s.mode with
  | .ok i => exec i s
  | .error _ => raise (.modeOutOfRange s.mode)

/-- The outcome of an action in the state it is done in. -/
def perform (a : Action) (s : State) : Result :=
  match a with
  | .idle => .next s
  | .event i => exec i s
  | .reserved w => .refused (.reservedWord w)
  | .service => service s
  | .foreground f op => (foregroundStep f op s).getD (.next s)

/-- A state to which an opcode-table word is given as the very next thing to run: FAULT empty, and for a MODE value
that value in MODE with a tick pending, enabled and next; for an event word the word first in the script, its turn
next, and the foreground free if the event needs it. -/
def placeWord (w : Byte) (s : State) : State :=
  match decodeMode w with
  | .ok _ =>
    { s with fault := FaultRecord.empty, mode := w, pend := true, ten := true, turns := .tick :: s.turns }
  | .error _ =>
    { s with
      fault := FaultRecord.empty
      fore := match decodeEvent w with
        | .ok i => if isForegroundEvent i then none else s.fore
        | .error _ => s.fore
      script := w :: s.script, turns := .environment :: s.turns }

end Sys2Proof.Machine
end

