-- ==== Sys2Proof/Machine/Step.lean ====
section
/-! DEFINITION. One step of the block (00_scope.md R8, R9), the state it leaves, and how an opcode-table word is placed
to be run next. -/

namespace Sys2Proof.Machine

/-- One step: none is enabled while FAULT is not empty (R37); else the next action is performed. -/
def step (s : State) : Host.Outcome State Fault Refusal :=
  if s.stopped then .fault .noStepEnabled else perform (nextAction s).1 (nextAction s).2

/-- The state one step leaves, FAULT record included (R9, R37). -/
def advance (s : State) : State := s.after (step s)

/-- `s` with an opcode-table word placed where the next step takes its operation from. -/
def State.withFetchWord (s : State) (nbits w : Nat) : State := placeWord (tableByte nbits w) s

end Sys2Proof.Machine
end

