-- ==== Sys2Proof/Machine/Script.lean ====
section
/-! DEFINITION. Scripts (30_encoding.md R70): the spec's way to write down what the environment delivers. Each line
stands for events, each event for its word (R62); the words are what a state's `script` holds. -/

namespace Sys2Proof

/-- The events of a script line; the pseudo-instructions as R70 expands them. -/
def ScriptLine.expand : ScriptLine → List Instr
  | .event i => [i]
  | .tick => [.expire]
  | .ticks n => List.replicate n .expire
  | .idle => [.poll true true]
  | .pressA => [.poll false true, .poll true true]
  | .pressB => [.poll true false, .poll true true]
  | .pressAB => [.poll false false, .poll true true]
  | .boot => [.hwReset, .tickEnable, .resetStates]

/-- The event words of a script, in delivery order (R70). -/
def assemble (lines : List ScriptLine) : List Byte := (lines.flatMap ScriptLine.expand).map encode

/-- The text before a comment: `;` starts one, to the end of the line (R70). -/
def dropComment (cs : List Char) : List Char := cs.takeWhile (fun c => c != ';')

/-- The words of a line: blanks separate them and a comma is a word of its own. The second argument is the word being
read, reversed. -/
def lineWords : List Char → List Char → List (List Char)
  | [], cur => if cur.isEmpty then [] else [cur.reverse]
  | c :: cs, cur =>
    let ended := if cur.isEmpty then [] else [cur.reverse]
    if c == ' ' || c == '\t' then ended ++ lineWords cs []
    else if c == ',' then ended ++ [','] :: lineWords cs []
    else lineWords cs (c :: cur)

/-- An operand of `POLL`: `0` or `1` (R70). -/
def levelOf : List Char → Option Bool
  | ['0'] => some false
  | ['1'] => some true
  | _ => none

/-- A decimal number. -/
def numberOf (cs : List Char) : Option Nat :=
  if cs.isEmpty then none
  else cs.foldl (fun acc c => acc.bind fun n => if c.isDigit then some (10 * n + (c.toNat - '0'.toNat)) else none)
    (some 0)

/-- The lines that are one mnemonic and nothing else (R62, R70). -/
def plainLines : List (List Char × ScriptLine) :=
  [ ("EXPIRE".toList, .event .expire),
    ("RESET_STATES".toList, .event .resetStates),
    ("TICK_DISABLE".toList, .event .tickDisable),
    ("TICK_ENABLE".toList, .event .tickEnable),
    ("HWRESET".toList, .event .hwReset),
    ("TICK".toList, .tick),
    ("IDLE".toList, .idle),
    ("PRESS_A".toList, .pressA),
    ("PRESS_B".toList, .pressB),
    ("PRESS_AB".toList, .pressAB),
    ("BOOT".toList, .boot) ]

/-- A line's words as a script line; a line that R70 does not spell is refused. -/
def lineOfWords : List (List Char) → Option ScriptLine
  | [w] => (plainLines.find? (fun p => p.1 == w)).map Prod.snd
  | [w, n] => if w == "TICKS".toList then
      (numberOf n).bind fun k => if (ScriptLine.ticks k).wf then some (.ticks k) else none
    else none
  | [w, a, c, b] => if w == "POLL".toList && c == [','] then
      (levelOf a).bind fun x => (levelOf b).map fun y => .event (.poll x y)
    else none
  | _ => none

/-- One line of text: empty, a script line, or refused. -/
def parseLine (cs : List Char) : Option (List ScriptLine) :=
  match lineWords (dropComment cs) [] with
  | [] => some []
  | ws => (lineOfWords ws).map fun l => [l]

/-- The text cut at its line ends. The second argument is the line being read, reversed. -/
def textLines : List Char → List Char → List (List Char)
  | [], cur => [cur.reverse]
  | c :: cs, cur => if c == '\n' then cur.reverse :: textLines cs [] else textLines cs (c :: cur)

/-- A script's text as script lines, one event or pseudo-instruction a line (R70). -/
def parseScript (text : List Char) : Option (List ScriptLine) :=
  (textLines text []).foldr (fun l rest => (parseLine l).bind fun x => rest.map fun y => x ++ y) (some [])

end Sys2Proof
end

