-- ==== Sys2Proof/Safety.lean ====
section
/-! DEFINITION. The terms claims about the block use: the invariant of the reachable states (10_state.md R38), the
frames of the steps (R84, R180, R190), the reading of a run (R270), and the reference schedule as one function
(R71). -/

namespace Sys2Proof.Machine

/-- The LFSR values of R38: the orbit of the seed. -/
def lfsrOrbit : List Word6 := [57#6, 28#6, 46#6, 55#6, 27#6, 45#6, 54#6]

/-- The ModeState registers hold legal values (R22-R27, R38). -/
def ModeState.Legal (ms : ModeState) : Prop :=
  ms.bcdU.toNat ≤ 9 ∧ ms.bcdT.toNat ≤ 9 ∧ ms.snakeIdx.toNat ≤ 10 ∧ ms.queueIdx.toNat ≤ 34 ∧ ms.lfsr ∈ lfsrOrbit

/-- An operation in progress has something left to do, writes no field twice in one reset, takes the press of A before
any reset, and only a poll has presses to apply (R36, R197). -/
def Foreground.Wf (op : Foreground) : Prop :=
  op.done = false ∧ op.resetLeft.Nodup ∧ (op.pressA = true → op.resetLeft = []) ∧
    (op.levels = none → op.pressA = false ∧ op.pressB = false)

/-- The invariant of R38: legal registers and no fault reason; and the hidden state of R36, which exists in the split
form only. -/
def State.Inv (s : State) : Prop :=
  (1 ≤ s.mode.toNat ∧ s.mode.toNat ≤ 9) ∧ s.ms.Legal ∧ s.fault.reasons = [] ∧
    ∀ op, s.fore = some op → op.Wf ∧ s.params.atomicModeChange = false

/-- What no step writes: the parameters, and every entry of the two tables, through the read of one entry (R33, R41,
R42). -/
def SameConstants (s t : State) : Prop :=
  t.params = s.params ∧ ∀ space i, memRead space i t = memRead space i s

/-- The MODEL's own fields and FAULT are as before: an operation touches neither what the environment will do nor the
record. -/
def SameModelFields (s t : State) : Prop :=
  t.fault = s.fault ∧ t.script = s.script ∧ t.turns = s.turns

/-- The frame of a tick (R84): apart from OUT and PEND, only the ModeState registers in `fs` may differ. -/
def TickFrame (fs : List ModeField) (s t : State) : Prop :=
  t.mode = s.mode ∧ t.prevA = s.prevA ∧ t.prevB = s.prevB ∧ t.ten = s.ten ∧ t.fore = s.fore ∧
    (∀ f, f ∉ fs → t.ms.read f = s.ms.read f) ∧ SameConstants s t ∧ SameModelFields s t

/-- A tick has completed (R81): OUT holds `v`, PEND is clear, and the frame of R84 holds. -/
def TickDone (v : Nat) (fs : List ModeField) (s t : State) : Prop :=
  t.out.map BitVec.toNat = some v ∧ t.pend = false ∧ TickFrame fs s t

/-- The frame of the poll agent (R180, R190): PEND, TEN, OUT, the tables and the model's fields are as before. -/
def PollFrame (s t : State) : Prop :=
  t.pend = s.pend ∧ t.ten = s.ten ∧ t.out = s.out ∧ SameConstants s t ∧ SameModelFields s t

/-- Nothing is going on and a tick would be taken at once: no fault, no operation in progress, no tick pending, ticks
enabled, and the reference schedule in force. -/
def State.Quiet (s : State) : Prop :=
  s.stopped = false ∧ s.fore = none ∧ s.turns = [] ∧ s.pend = false ∧ s.ten = true

/-- The state with `n` expiries of the timer to come and nothing else. -/
def State.withExpiries (n : Nat) (s : State) : State := { s with script := List.replicate n 0x00#8 }

/-- The state after `n` ticks in a row, from `n` expiries under the reference schedule: two steps each. -/
def afterTicks (n : Nat) (s : State) : Result := Sys2Proof.core.run (2 * n) (s.withExpiries n)

/-- The number of ticks taken in the first `k` steps (R87, R90). -/
def ticksTaken : Nat → State → Nat
  | 0, _ => 0
  | k + 1, s =>
    match step s with
    | .next t => (if (nextAction s).1 = .service then 1 else 0) + ticksTaken k t
    | .fault _ => 0
    | .refused _ => 0

/-- The values the ticks of the first `k` steps leave in OUT, in order: what a claim about a run observes (R270). -/
def outputs : Nat → State → List Byte
  | 0, _ => []
  | k + 1, s =>
    match step s with
    | .next t => (if (nextAction s).1 = .service then t.out.toList else []) ++ outputs k t
    | .fault _ => []
    | .refused _ => []

/-- The reference schedule of R71 for events that each complete in one step: the event, then a tick if one is
enabled. -/
def referenceRun : List Instr → State → Result
  | [], s => .next s
  | i :: is, s =>
    match exec i s with
    | .next t =>
      match (if t.serviceEnabled then service t else .next t) with
      | .next u => referenceRun is u
      | r => r
    | r => r

/-- The register that holds the whole state of a mode with one field (R263): modes 1 to 4, 7, 8 and 9. -/
def singleField (mode : Byte) : Option ModeField :=
  match mode.toNat with
  | 1 | 2 | 3 | 4 => some .acc
  | 7 => some .snakeIdx
  | 8 => some .queueIdx
  | 9 => some .lfsr
  | _ => none

/-- One tick's effect on that register, as a number (R100-R103, R140, R141, R160). -/
def fieldAdvance (mode : Byte) (v : Nat) : Nat :=
  match mode.toNat with
  | 1 | 3 => (v + 1) % 256
  | 2 | 4 => (v + 255) % 256
  | 7 => (v + 1) % 11
  | 8 => (v + 1) % 35
  | 9 => (lfsrNext (BitVec.ofNat 6 v)).toNat
  | _ => v

end Sys2Proof.Machine
end

