-- ==== Sys2Proof/Certificates/Slice0/Obligations.lean ====
section
/-! DEFINITION. The statements about the block, from the numbered rules of spec/. Each docstring names its rules. A
statement about a state holds for every value of the OPEN parameters and of the tables, since both are fields of the
state. -/

open Sys2Proof Sys2Proof.Machine

/-! ## Encodings -/

/-- R68: the event decoder, pattern by pattern in its order. The event encoding is the spec's own decision D14. -/
def Obligations.EventDecoderFollowsTheMasks : Prop :=
  ∀ w : Byte, decodeEvent w =
    if w = 0x00#8 then .ok .expire
    else if w &&& 0xFC#8 = 0x40#8 then .ok (.poll (w.getLsbD 0) (w.getLsbD 1))
    else if w = 0x80#8 then .ok .resetStates
    else if w = 0xC0#8 then .ok .tickDisable
    else if w = 0xC1#8 then .ok .tickEnable
    else if w = 0xC2#8 then .ok .hwReset
    else .error (.reserved w)

/-- R60, R61: the nine MODE values that select a tick operation, and that no other does. The rejection of the other
values is the spec's own decision D6. -/
def Obligations.ModeValuesSelectTheTickOperations : Prop :=
  ∀ m : Byte, decodeMode m =
    match m.toNat with
    | 1 => .ok .tickInc
    | 2 => .ok .tickDec
    | 3 => .ok .tickGrayUp
    | 4 => .ok .tickGrayDown
    | 5 => .ok .tickBcdUp
    | 6 => .ok .tickBcdDown
    | 7 => .ok .tickSnake
    | 8 => .ok .tickQueue
    | 9 => .ok .tickLfsr
    | _ => .error (.modeOutOfRange m)

/-- R60, R62, R69: encoding and decoding agree in both directions, each operation in its own encoding only. -/
def Obligations.EncodingRoundTrips : Prop :=
  (∀ i : Instr, i.wfIn .event = true → decodeEvent (encode i) = .ok i) ∧
  (∀ i : Instr, i.wfIn .mode = true → decodeMode (encode i) = .ok i) ∧
  (∀ (w : Byte) (i : Instr), decodeEvent w = .ok i → i.wfIn .event = true ∧ encode i = w) ∧
  (∀ (m : Byte) (i : Instr), decodeMode m = .ok i → i.wfIn .mode = true ∧ encode i = m)

/-- R67, R9: exactly the listed words are reserved; delivering one is refused, sets `REFUSED` and changes nothing
else. Refusal of reserved words is the spec's own decision D14; that the refused word stays in the script is the
model's (log entry 4). -/
def Obligations.ReservedWordsAreRefused : Prop :=
  (∀ w : Byte, decodeEvent w = .error (.reserved w) ↔
    (0x01 ≤ w.toNat ∧ w.toNat ≤ 0x3F) ∨ (0x44 ≤ w.toNat ∧ w.toNat ≤ 0x7F) ∨
    (0x81 ≤ w.toNat ∧ w.toNat ≤ 0xBF) ∨ (0xC3 ≤ w.toNat ∧ w.toNat ≤ 0xFF)) ∧
  ∀ (s : State) (w : Byte) (ws : List Byte) (ts : List Turn),
    s.stopped = false → s.turns = .environment :: ts → s.script = w :: ws → decodeEvent w = .error (.reserved w) →
      step s = .refused (.reservedWord w) ∧ advance s = { s with fault := ⟨s.fault.reasons, true⟩ }

/-- R70: the expansion of each script line, as its table gives it; and an assembled script is read back by the event
decoder as the events its lines expand to. The script syntax is the spec's own decision D14. -/
def Obligations.AssembledScriptDecodesToItsEvents : Prop :=
  (∀ lines : List ScriptLine, (∀ l ∈ lines, l.wf = true) →
    (assemble lines).map decodeEvent = (lines.flatMap ScriptLine.expand).map .ok) ∧
  (∀ i : Instr, i.wfIn .event = true → (ScriptLine.event i).expand = [i]) ∧
  ScriptLine.tick.expand = [.expire] ∧
  (∀ n : Nat, 1 ≤ n → (ScriptLine.ticks n).expand.length = n ∧ ∀ i ∈ (ScriptLine.ticks n).expand, i = .expire) ∧
  ScriptLine.idle.expand = [.poll true true] ∧
  ScriptLine.pressA.expand = [.poll false true, .poll true true] ∧
  ScriptLine.pressB.expand = [.poll true false, .poll true true] ∧
  ScriptLine.pressAB.expand = [.poll false false, .poll true true] ∧
  ScriptLine.boot.expand = [.hwReset, .tickEnable, .resetStates]

/-! ## The step -/

/-- R8, R62, R200: when the environment's turn has come and its next word is an event that is enabled, the step is
that event in the state without the word (and without the turn). The second clause is the reference schedule's
delivery (R71): nothing in progress, no tick to take. The script and the turns are the model's own fields (log entry
1). -/
def Obligations.StepRunsTheDeliveredEvent : Prop :=
  ∀ (s : State) (w : Byte) (ws : List Byte) (i : Instr),
    s.stopped = false → s.script = w :: ws → decodeEvent w = .ok i →
      (∀ ts, s.turns = .environment :: ts →
        (isForegroundEvent i = false ∨ s.fore = none) → step s = exec i { s with script := ws, turns := ts }) ∧
      (s.turns = [] → s.fore = none → (s.pend = false ∨ s.ten = false) → step s = exec i { s with script := ws })

/-- R80, R81, R85: when a tick is pending and enabled and it is the tick's turn, the step is the tick operation MODE
selects, whatever the foreground is doing; under the reference schedule (R71) the same holds with the foreground free.
The turns are the model's own field (log entry 1). -/
def Obligations.StepRunsTheTickThatModeSelects : Prop :=
  ∀ (s : State) (i : Instr), s.stopped = false → s.pend = true → s.ten = true → decodeMode s.mode = .ok i →
    (∀ ts, s.turns = .tick :: ts → step s = exec i { s with turns := ts }) ∧
    (s.turns = [] → s.fore = none → step s = exec i s)

/-- How an opcode-table word comes to run: placed in any state, it is what the next step runs; a MODE value with a
tick pending and enabled, an event word with the foreground free if the event needs it (the model's own placing, log
entry 6). -/
def Obligations.PlacedWordRunsNext : Prop :=
  ∀ (s : State) (w : Byte),
    (∀ i, decodeMode w = .ok i → step (s.withFetchWord 8 w.toNat) =
      exec i { s with fault := FaultRecord.empty, mode := w, pend := true, ten := true }) ∧
    (∀ i, decodeEvent w = .ok i → step (s.withFetchWord 8 w.toNat) =
      exec i { s with fault := FaultRecord.empty, fore := if isForegroundEvent i then none else s.fore })

/-- R80, R37: on the tick's turn SERVICE is taken exactly when PEND = 1, TEN = 1 and FAULT is empty, at any point of a
foreground operation; with FAULT empty and a bit clear, the turn passes with nothing done. If FAULT is not empty no
step is enabled. The rule is the spec's own decision D8; the passing over is the model's (log entry 1). -/
def Obligations.TickIsTakenExactlyWhenPendingAndEnabled : Prop :=
  ∀ (s : State) (ts : List Turn), s.turns = .tick :: ts →
    (s.pend = true ∧ s.ten = true ∧ s.stopped = false → step s = service { s with turns := ts }) ∧
    (¬(s.pend = true ∧ s.ten = true) ∧ s.stopped = false → step s = .next { s with turns := ts }) ∧
    (s.stopped = true → step s = .fault .noStepEnabled)

/-- R200: while a foreground operation is in progress the foreground events wait, their word undelivered; `EXPIRE` and
`HWRESET` do not wait. The rule is the spec's own decision D16; that the word stays first in the script is the model's
(log entry 9). -/
def Obligations.ForegroundEventsWaitForTheForeground : Prop :=
  ∀ (s : State) (op : Foreground) (w : Byte) (ws : List Byte) (ts : List Turn) (i : Instr),
    s.stopped = false → s.fore = some op → s.turns = .environment :: ts → s.script = w :: ws → decodeEvent w = .ok i →
      ((i = .resetStates ∨ i = .tickEnable ∨ i = .tickDisable ∨ ∃ a b, i = .poll a b) →
        step s = .next { s with turns := ts }) ∧
      ((i = .expire ∨ i = .hwReset) → step s = exec i { s with turns := ts, script := ws })

/-- R37: FAULT starts empty; while it is not empty no step is enabled; no step, `HWRESET` included, takes anything out
of it; and it changes only when a step ends in a fault or a refusal. The record is the spec's own decision D6. -/
def Obligations.FaultRecordIsStickyAndStopsTheMachine : Prop :=
  State.reset.stopped = false ∧
  (∀ s : State, s.stopped = true → step s = .fault .noStepEnabled ∧ advance s = s) ∧
  (∀ s t : State, step s = .next t → t.fault = s.fault) ∧
  (∀ (s : State) (r : FaultReason), step s = .fault (.raised r) →
    advance s = { s with fault := ⟨s.fault.reasons ++ [r], s.fault.refused⟩ }) ∧
  ∀ s : State, (∀ r ∈ s.fault.reasons, r ∈ (advance s).fault.reasons) ∧
    (s.fault.refused = true → (advance s).fault.refused = true)

/-- R86: a tick that finds MODE outside 1..9 raises `ModeOutOfRange` with that value, and the state it leaves differs
in FAULT only: OUT, ModeState and PEND are as before. The fault is the spec's own decision D6. -/
def Obligations.TickOnIllegalModeFaults : Prop :=
  ∀ s : State, (s.mode.toNat = 0 ∨ 10 ≤ s.mode.toNat) →
    service s = .fault (.raised (.modeOutOfRange s.mode)) ∧
    ∀ ts, s.stopped = false → s.turns = .tick :: ts → s.pend = true → s.ten = true →
      advance s = { s with fault := ⟨[.modeOutOfRange s.mode], false⟩ }

/-! ## Ticks -/

/-- R100: `TICK.INC` outputs ACC, then increments it modulo 256. -/
def Obligations.TickIncOutputsThenIncrements : Prop :=
  decodeMode 0x01#8 = .ok .tickInc ∧
  ∀ s : State, ∃ t, exec .tickInc s = .next t ∧
    t.ms.acc.toNat = (s.ms.acc.toNat + 1) % 256 ∧ TickDone s.ms.acc.toNat [.acc] s t

/-- R101: `TICK.DEC` outputs ACC, then decrements it modulo 256. -/
def Obligations.TickDecOutputsThenDecrements : Prop :=
  decodeMode 0x02#8 = .ok .tickDec ∧
  ∀ s : State, ∃ t, exec .tickDec s = .next t ∧
    t.ms.acc.toNat = (s.ms.acc.toNat + 255) % 256 ∧ TickDone s.ms.acc.toNat [.acc] s t

/-- R104: the Gray code, bit by bit. -/
def Obligations.GrayCodeBits : Prop :=
  ∀ a : Byte, gray a = a ^^^ (a >>> 1) ∧ (gray a).getLsbD 7 = a.getLsbD 7 ∧
    ∀ i, i ≤ 6 → (gray a).getLsbD i = (a.getLsbD (i + 1) ^^ a.getLsbD i)

/-- R102: `TICK.GRAY_UP` increments ACC and outputs the Gray code of the new value or of the old one, as `GRAY_ORDER`
says. Both values of the OPEN parameter are covered, so nothing rests on decision D5. -/
def Obligations.TickGrayUpOutputsTheOrderedCode : Prop :=
  decodeMode 0x03#8 = .ok .tickGrayUp ∧
  ∀ s : State, ∃ t, exec .tickGrayUp s = .next t ∧
    t.ms.acc.toNat = (s.ms.acc.toNat + 1) % 256 ∧
    (s.params.grayOrder = .updateThenOutput → TickDone (t.ms.acc.toNat ^^^ (t.ms.acc.toNat / 2)) [.acc] s t) ∧
    (s.params.grayOrder = .outputThenUpdate → TickDone (s.ms.acc.toNat ^^^ (s.ms.acc.toNat / 2)) [.acc] s t)

/-- R103: `TICK.GRAY_DOWN`, the same downwards. Both values of the OPEN parameter are covered, so nothing rests on
decision D5. -/
def Obligations.TickGrayDownOutputsTheOrderedCode : Prop :=
  decodeMode 0x04#8 = .ok .tickGrayDown ∧
  ∀ s : State, ∃ t, exec .tickGrayDown s = .next t ∧
    t.ms.acc.toNat = (s.ms.acc.toNat + 255) % 256 ∧
    (s.params.grayOrder = .updateThenOutput → TickDone (t.ms.acc.toNat ^^^ (t.ms.acc.toNat / 2)) [.acc] s t) ∧
    (s.params.grayOrder = .outputThenUpdate → TickDone (s.ms.acc.toNat ^^^ (s.ms.acc.toNat / 2)) [.acc] s t)

/-- R106: two successive ticks of mode 3, or of mode 4, output values that differ in exactly one bit, under either
`GRAY_ORDER`. The spec derives this law from its rules. -/
def Obligations.SuccessiveGrayOutputsDifferInOneBit : Prop :=
  ∀ (i : Instr) (s : State), i = .tickGrayUp ∨ i = .tickGrayDown →
    ∃ t u v w, exec i s = .next t ∧ exec i t = .next u ∧ t.out = some v ∧ u.out = some w ∧
      ∃ k : Nat, k < 8 ∧ ∀ j, j < 8 → ((v.getLsbD j ≠ w.getLsbD j) ↔ j = k)

/-- R120, R124: `TICK.BCD_UP` advances the digit pair and outputs the updated digits packed. -/
def Obligations.TickBcdUpAdvancesTheDigits : Prop :=
  decodeMode 0x05#8 = .ok .tickBcdUp ∧
  ∀ s : State, ∃ t, exec .tickBcdUp s = .next t ∧
    (s.ms.bcdU.toNat + 1 > 9 → t.ms.bcdU.toNat = 0 ∧ t.ms.bcdT.toNat = (s.ms.bcdT.toNat + 1) % 10) ∧
    (s.ms.bcdU.toNat + 1 ≤ 9 → t.ms.bcdU.toNat = s.ms.bcdU.toNat + 1 ∧ t.ms.bcdT.toNat = s.ms.bcdT.toNat) ∧
    TickDone (16 * t.ms.bcdT.toNat + t.ms.bcdU.toNat) [.bcdU, .bcdT] s t

/-- R121, R124: `TICK.BCD_DOWN`. -/
def Obligations.TickBcdDownLowersTheDigits : Prop :=
  decodeMode 0x06#8 = .ok .tickBcdDown ∧
  ∀ s : State, ∃ t, exec .tickBcdDown s = .next t ∧
    (s.ms.bcdU.toNat = 0 → t.ms.bcdU.toNat = 9 ∧
      t.ms.bcdT.toNat = if s.ms.bcdT.toNat = 0 then 9 else s.ms.bcdT.toNat - 1) ∧
    (s.ms.bcdU.toNat ≠ 0 → t.ms.bcdU.toNat = s.ms.bcdU.toNat - 1 ∧ t.ms.bcdT.toNat = s.ms.bcdT.toNat) ∧
    TickDone (16 * t.ms.bcdT.toNat + t.ms.bcdU.toNat) [.bcdU, .bcdT] s t

/-- R122: from decimal digits a tick of mode 5 or 6 leaves decimal digits, and both nibbles of its output are decimal.
The spec derives this law from its rules. -/
def Obligations.BcdTicksKeepDecimalDigits : Prop :=
  ∀ (i : Instr) (s : State), i = .tickBcdUp ∨ i = .tickBcdDown → s.ms.bcdU.toNat ≤ 9 → s.ms.bcdT.toNat ≤ 9 →
    ∃ t v, exec i s = .next t ∧ t.ms.bcdU.toNat ≤ 9 ∧ t.ms.bcdT.toNat ≤ 9 ∧
      t.out = some v ∧ v.toNat / 16 ≤ 9 ∧ v.toNat % 16 ≤ 9

/-- R123: on decimal digits the updates of modes 5 and 6 undo each other, in either order. The spec derives this law
from its rules. -/
def Obligations.BcdUpAndDownAreInverse : Prop :=
  ∀ (i j : Instr) (s : State), (i = .tickBcdUp ∧ j = .tickBcdDown) ∨ (i = .tickBcdDown ∧ j = .tickBcdUp) →
    s.ms.bcdU.toNat ≤ 9 → s.ms.bcdT.toNat ≤ 9 →
      ∃ t u, exec i s = .next t ∧ exec j t = .next u ∧ u.ms.bcdU = s.ms.bcdU ∧ u.ms.bcdT = s.ms.bcdT

/-- R41, R42, R43: an entry of a table is read at its index; an index beyond the table is a fault. The fault is the
spec's own decision D7. -/
def Obligations.TableReadsAreBoundsChecked : Prop :=
  ∀ (s : State) (i : Nat),
    (∀ h : i < 11, memRead .snakeRom i s = .ok s.snakeRom[i]) ∧
    (11 ≤ i → memRead .snakeRom i s = .error (.indexOutOfRange .snakeRom i)) ∧
    (∀ h : i < 35, memRead .queueRom i s = .ok s.queueRom[i]) ∧
    (35 ≤ i → memRead .queueRom i s = .error (.indexOutOfRange .queueRom i))

/-- R140: `TICK.SNAKE` outputs the current entry and advances the index, which wraps from 10 to 0; an index beyond the
table faults. The fault is the spec's own decision D7. -/
def Obligations.TickSnakePlaysTheTable : Prop :=
  decodeMode 0x07#8 = .ok .tickSnake ∧
  ∀ s : State,
    (s.ms.snakeIdx.toNat ≤ 10 → ∃ t v, exec .tickSnake s = .next t ∧
      memRead .snakeRom s.ms.snakeIdx.toNat s = .ok v ∧
      t.ms.snakeIdx.toNat = (if s.ms.snakeIdx.toNat + 1 = 11 then 0 else s.ms.snakeIdx.toNat + 1) ∧
      TickDone v.toNat [.snakeIdx] s t) ∧
    (10 < s.ms.snakeIdx.toNat →
      exec .tickSnake s = .fault (.raised (.indexOutOfRange .snakeRom s.ms.snakeIdx.toNat)))

/-- R141: `TICK.QUEUE`, with the table of 35 entries. The fault is the spec's own decision D7. -/
def Obligations.TickQueuePlaysTheTable : Prop :=
  decodeMode 0x08#8 = .ok .tickQueue ∧
  ∀ s : State,
    (s.ms.queueIdx.toNat ≤ 34 → ∃ t v, exec .tickQueue s = .next t ∧
      memRead .queueRom s.ms.queueIdx.toNat s = .ok v ∧
      t.ms.queueIdx.toNat = (if s.ms.queueIdx.toNat + 1 = 35 then 0 else s.ms.queueIdx.toNat + 1) ∧
      TickDone v.toNat [.queueIdx] s t) ∧
    (34 < s.ms.queueIdx.toNat →
      exec .tickQueue s = .fault (.raised (.indexOutOfRange .queueRom s.ms.queueIdx.toNat)))

/-- R160: `TICK.LFSR` shifts right, bit 5 becomes the exclusive or of bits 5 and 4, and the new value is output with
zeros above. The bit numbering is the spec's own decision D2. -/
def Obligations.TickLfsrShiftsAndOutputs : Prop :=
  decodeMode 0x09#8 = .ok .tickLfsr ∧
  ∀ s : State, ∃ t, exec .tickLfsr s = .next t ∧
    t.ms.lfsr.toNat = s.ms.lfsr.toNat / 2 + 32 * ((s.ms.lfsr.toNat / 32 + s.ms.lfsr.toNat / 16) % 2) ∧
    TickDone t.ms.lfsr.toNat [.lfsr] s t

/-- R162: the update maps the 64 values two to one onto 32; 0..15 reach 0 within four updates, every other value
reaches the cycle of 27, 45 and 54; 0 stays 0; and only 0, 27, 45 and 54 lie on a cycle. The spec derives this by enumeration. -/
def Obligations.LfsrStateGraph : Prop :=
  (∀ y : Word6, (∃ x, lfsrNext x = y) → ∃ x x' : Word6, x ≠ x' ∧ ∀ z, lfsrNext z = y ↔ z = x ∨ z = x') ∧
  ((List.range 64).map (fun n => lfsrNext (BitVec.ofNat 6 n))).dedup.length = 32 ∧
  (∀ x : Word6, x.toNat ≤ 15 → ∃ n, n ≤ 4 ∧ lfsrNext^[n] x = 0#6) ∧
  (∀ x : Word6, 16 ≤ x.toNat → ∃ n, lfsrNext^[n] x = 27#6) ∧
  lfsrNext 0#6 = 0#6 ∧
  (lfsrNext 27#6 = 45#6 ∧ lfsrNext 45#6 = 54#6 ∧ lfsrNext 54#6 = 27#6) ∧
  ∀ (x : Word6) (n : Nat), 0 < n → lfsrNext^[n] x = x → x = 0#6 ∨ x = 27#6 ∨ x = 45#6 ∨ x = 54#6

/-! ## Runs of ticks -/

/-- R105: from ACC = a, the (n+1)-st tick in a row of mode 1 outputs (a + n) mod 256; and 256 ticks in a row of any of
modes 1 to 4 return ACC to its start. The spec derives this law from its rules. -/
def Obligations.AccumulatorModesCloseAfter256Ticks : Prop :=
  ∀ s : State, s.Quiet →
    (s.mode.toNat = 1 → ∀ n, ∃ t, afterTicks (n + 1) s = .next t ∧
      t.out.map BitVec.toNat = some ((s.ms.acc.toNat + n) % 256)) ∧
    (1 ≤ s.mode.toNat → s.mode.toNat ≤ 4 → ∃ t, afterTicks 256 s = .next t ∧ t.ms = s.ms ∧ t.mode = s.mode)

/-- R125: in modes 5 and 6 the digit pair, read as a number, counts up or down modulo 100 over ticks in a row under the
reference schedule, and each output is the pair reached; so each pair is revisited after 100 ticks and not before. The spec derives the period from its rules. -/
def Obligations.BcdModesCountModulo100 : Prop :=
  ∀ s : State, s.Quiet → s.ms.bcdU.toNat ≤ 9 → s.ms.bcdT.toNat ≤ 9 → ∀ n, 0 < n →
    (s.mode.toNat = 5 → ∃ t, afterTicks n s = .next t ∧
      10 * t.ms.bcdT.toNat + t.ms.bcdU.toNat = (10 * s.ms.bcdT.toNat + s.ms.bcdU.toNat + n) % 100 ∧
      t.ms.bcdU.toNat ≤ 9 ∧ t.out.map BitVec.toNat = some (16 * t.ms.bcdT.toNat + t.ms.bcdU.toNat)) ∧
    (s.mode.toNat = 6 → ∃ t, afterTicks n s = .next t ∧
      10 * t.ms.bcdT.toNat + t.ms.bcdU.toNat = (10 * s.ms.bcdT.toNat + s.ms.bcdU.toNat + 99 * n) % 100 ∧
      t.ms.bcdU.toNat ≤ 9 ∧ t.out.map BitVec.toNat = some (16 * t.ms.bcdT.toNat + t.ms.bcdU.toNat))

/-- R142: from index 0 the outputs of mode 7 are the snake table over and over, those of mode 8 the queue table. The
spec derives this law from its rules. -/
def Obligations.TableModesRepeatTheirTable : Prop :=
  ∀ (s : State) (n : Nat), s.Quiet →
    (s.mode.toNat = 7 → s.ms.snakeIdx.toNat = 0 → ∃ t v, afterTicks (n + 1) s = .next t ∧
      memRead .snakeRom (n % 11) s = .ok v ∧ t.out = some v) ∧
    (s.mode.toNat = 8 → s.ms.queueIdx.toNat = 0 → ∃ t v, afterTicks (n + 1) s = .next t ∧
      memRead .queueRom (n % 35) s = .ok v ∧ t.out = some v)

/-- R161: the outputs of mode 9 from the seed: 28, 46, 55, and then 27, 45, 54 over and over. The spec derives this by
enumeration. -/
def Obligations.LfsrOrbitFromTheSeed : Prop :=
  ∀ s : State, s.Quiet → s.mode.toNat = 9 → s.ms.lfsr.toNat = 57 → ∀ n, ∃ t, afterTicks (n + 1) s = .next t ∧
    t.out.map BitVec.toNat = some t.ms.lfsr.toNat ∧
    t.ms.lfsr.toNat =
      if n = 0 then 28 else if n = 1 then 46 else if n = 2 then 55
      else if n % 3 = 0 then 27 else if n % 3 = 1 then 45 else 54

/-! ## The timer flag and its enable -/

/-- R89: `EXPIRE` sets PEND and nothing else, whatever TEN holds. The flag's behaviour is the spec's own decision D8. -/
def Obligations.ExpireSetsPending : Prop :=
  decodeEvent 0x00#8 = .ok .expire ∧ ∀ s : State, exec .expire s = .next { s with pend := true }

/-- R223: `TICK_ENABLE` and `TICK_DISABLE` write TEN and nothing else. The enable is the spec's own decision D9. -/
def Obligations.TickEnableAndDisableWriteTen : Prop :=
  decodeEvent 0xC1#8 = .ok .tickEnable ∧ decodeEvent 0xC0#8 = .ok .tickDisable ∧
  ∀ s : State, exec .tickEnable s = .next { s with ten := true } ∧ exec .tickDisable s = .next { s with ten := false }

/-- R90, R224: k ≥ 1 expiries while the tick is masked lead to exactly one tick once it is enabled, however long one
then waits. The merging is the spec's own decision D8. -/
def Obligations.MaskedExpiriesGiveOneTick : Prop :=
  ∀ (s : State) (k m : Nat), s.Inv → s.fault.refused = false → s.fore = none → s.turns = [] → s.ten = false → 1 ≤ k →
    ticksTaken (k + 2 + m) { s with script := List.replicate k 0x00#8 ++ [0xC1#8] } = 1

/-! ## ResetStates and the mode selector -/

/-- R180, R182: `RESET_STATES`, atomic form: the six fields at their reset values and nothing else written. -/
def Obligations.ResetStatesWritesTheSixFields : Prop :=
  decodeEvent 0x80#8 = .ok .resetStates ∧
  ∀ s : State, s.params.atomicModeChange = true → ∃ t, exec .resetStates s = .next t ∧
    t.ms.acc.toNat = 0 ∧ t.ms.bcdU.toNat = 0 ∧ t.ms.bcdT.toNat = 0 ∧ t.ms.snakeIdx.toNat = 0 ∧
    t.ms.queueIdx.toNat = 0 ∧ t.ms.lfsr.toNat = 57 ∧
    t.mode = s.mode ∧ t.prevA = s.prevA ∧ t.prevB = s.prevB ∧ t.fore = s.fore ∧ PollFrame s t

/-- R184: performing the atomic ResetStates twice leaves the same state as performing it once. The spec derives this
from its rules. -/
def Obligations.ResetStatesIsIdempotent : Prop :=
  ∀ s : State, s.params.atomicModeChange = true →
    ∃ t, exec .resetStates s = .next t ∧ exec .resetStates t = .next t

/-- R181, R182, R36: in the split form `RESET_STATES` starts an operation in which all six fields remain to be reset,
no press and no levels, and writes no register. That the delivery is a step of its own is the model's (log entry 5); the
split form is the spec's own decision D10. -/
def Obligations.SplitResetStatesStartsTheSixSteps : Prop :=
  ∀ s : State, s.params.atomicModeChange = false → ∃ op, exec .resetStates s = .next { s with fore := some op } ∧
    op.levels = none ∧ op.pressA = false ∧ op.pressB = false ∧ op.resetLeft.Nodup ∧ ∀ f, f ∈ op.resetLeft

/-- R190, R192, R193, R194, R195, R196: a poll in one step. A press is a previous level high and a level now low. A
press of A alone steps MODE forward with wrap from 9 to 1, of B alone back with wrap from 1 to 9, both leave it; any
press resets ModeState; the levels are remembered. With an illegal MODE a press faults, and a poll without a press
does not. The fault is the spec's own decision D6. -/
def Obligations.PollSelectsTheModeInOneStep : Prop :=
  ∀ (s : State) (a b : Bool), s.params.atomicModeChange = true →
    let pressA := s.prevA = true ∧ a = false
    let pressB := s.prevB = true ∧ b = false
    let legal := 1 ≤ s.mode.toNat ∧ s.mode.toNat ≤ 9
    (legal ∨ (¬pressA ∧ ¬pressB) → ∃ t, exec (.poll a b) s = .next t ∧
      (pressA ∧ ¬pressB → t.mode.toNat = if s.mode.toNat = 9 then 1 else s.mode.toNat + 1) ∧
      (¬pressA ∧ pressB → t.mode.toNat = if s.mode.toNat = 1 then 9 else s.mode.toNat - 1) ∧
      ((pressA ↔ pressB) → t.mode = s.mode) ∧
      (pressA ∨ pressB → t.ms = ModeState.initial) ∧
      (¬pressA ∧ ¬pressB → t.ms = s.ms) ∧
      t.prevA = a ∧ t.prevB = b ∧ t.fore = s.fore ∧ PollFrame s t) ∧
    (¬legal ∧ (pressA ∨ pressB) → exec (.poll a b) s = .fault (.raised (.modeOutOfRange s.mode)))

/-- R197, R36: in the split form a poll starts a reaction that holds the sampled levels and the presses they show, and
writes no register. That the delivery is a step of its own is the model's (log entry 5); the split form is the spec's
own decision D10. -/
def Obligations.SplitPollHoldsItsLevelsAndPresses : Prop :=
  ∀ (s : State) (a b : Bool), s.params.atomicModeChange = false → ∃ op,
    exec (.poll a b) s = .next { s with fore := some op } ∧ op.levels = some (a, b) ∧
    (op.pressA = true ↔ s.prevA = true ∧ a = false) ∧ (op.pressB = true ↔ s.prevB = true ∧ b = false) ∧
    op.resetLeft = []

/-- R195, R266: a poll that shows both presses, in one step: MODE as it was, ModeState reset, both levels low. The
spec derives this from its rules. -/
def Obligations.DoublePressKeepsModeAndResets : Prop :=
  ∀ s : State, s.params.atomicModeChange = true → s.prevA = true → s.prevB = true →
    1 ≤ s.mode.toNat → s.mode.toNat ≤ 9 →
      exec (.poll false false) s = .next { s with ms := ModeState.initial, prevA := false, prevB := false }

/-- R202: nine presses of the same button, each with its release, return MODE to its start. The spec derives this from
its rules. -/
def Obligations.NinePressesReturnToTheMode : Prop :=
  ∀ (s : State) (w : Byte), s.Quiet → s.params.atomicModeChange = true → s.prevA = true → s.prevB = true →
    1 ≤ s.mode.toNat → s.mode.toNat ≤ 9 → w = 0x42#8 ∨ w = 0x41#8 →
      ∃ t, Sys2Proof.core.run 18 { s with script := (List.replicate 9 [w, 0x43#8]).flatten } = .next t ∧
        t.mode = s.mode ∧ t.ms = ModeState.initial

/-- R199: once a poll has seen A low, further polls with A low and B high detect no press, however many: MODE and
ModeState stay; likewise with A and B exchanged. The spec derives this from its rules. -/
def Obligations.HeldButtonGivesNoFurtherPress : Prop :=
  ∀ (s : State) (n : Nat), s.Quiet → s.params.atomicModeChange = true →
    (s.prevA = false → ∃ t, Sys2Proof.core.run n { s with script := List.replicate n 0x42#8 } = .next t ∧
      t.mode = s.mode ∧ t.ms = s.ms ∧ t.prevA = false) ∧
    (s.prevB = false → ∃ t, Sys2Proof.core.run n { s with script := List.replicate n 0x41#8 } = .next t ∧
      t.mode = s.mode ∧ t.ms = s.ms ∧ t.prevB = false)

/-- R185: the output of the first tick after a one-step change of mode, for each mode changed into. The spec derives
this from its rules. -/
def Obligations.FirstOutputAfterAModeChange : Prop :=
  ∀ (s t : State) (a b : Bool), s.params.atomicModeChange = true → 1 ≤ s.mode.toNat → s.mode.toNat ≤ 9 →
    (s.edgeA a = true ∨ s.edgeB b = true) → exec (.poll a b) s = .next t →
      ∃ u v, service t = .next u ∧ u.out = some v ∧
        (t.mode.toNat = 1 → v = 0x00#8) ∧ (t.mode.toNat = 2 → v = 0x00#8) ∧
        (t.mode.toNat = 3 → v = if s.params.grayOrder = .updateThenOutput then 0x01#8 else 0x00#8) ∧
        (t.mode.toNat = 4 → v = if s.params.grayOrder = .updateThenOutput then 0x80#8 else 0x00#8) ∧
        (t.mode.toNat = 5 → v = 0x01#8) ∧ (t.mode.toNat = 6 → v = 0x99#8) ∧
        (t.mode.toNat = 7 → memRead .snakeRom 0 s = .ok v) ∧ (t.mode.toNat = 8 → memRead .queueRom 0 s = .ok v) ∧
        (t.mode.toNat = 9 → v = 0x1C#8)

/-! ## The split form and the race -/

/-- R181, R197: the steps of a split reaction, in their order: while fields remain to be reset, the write of one of
them, any one, and of nothing else; then MODE forward for a press of A, with all six fields to reset next; then MODE back for a press of B
(an illegal MODE faults there); then the levels, which end it. A field already reset is passed over, the model's way
(log entry 1). The split form is the spec's own decision D10. -/
def Obligations.SplitReactionTakesItsStepsInOrder : Prop :=
  ∀ (s : State) (op : Foreground) (f : ModeField) (ts : List Turn),
    s.stopped = false → s.fore = some op → op.resetLeft.Nodup → s.turns = .foreground f :: ts →
      (f ∈ op.resetLeft → ∃ ms fore, step s = .next { s with turns := ts, ms := ms, fore := fore } ∧
        ms.read f = ModeState.initial.read f ∧ (∀ g, g ≠ f → ms.read g = s.ms.read g) ∧
        (∀ op', fore = some op' → op'.levels = op.levels ∧ op'.pressA = op.pressA ∧ op'.pressB = op.pressB ∧
          op'.resetLeft.Nodup ∧ ∀ g, g ∈ op'.resetLeft ↔ g ∈ op.resetLeft ∧ g ≠ f) ∧
        (fore = none ↔ op.levels = none ∧ op.pressA = false ∧ op.pressB = false ∧ op.resetLeft = [f])) ∧
      (op.resetLeft ≠ [] → f ∉ op.resetLeft → step s = .next { s with turns := ts }) ∧
      (1 ≤ s.mode.toNat → s.mode.toNat ≤ 9 → op.resetLeft = [] → op.pressA = true → ∃ m : Byte,
        m.toNat = (if s.mode.toNat = 9 then 1 else s.mode.toNat + 1) ∧
        step s = .next { s with
          turns := ts, mode := m, fore := some { op with pressA := false, resetLeft := resetFields } }) ∧
      (1 ≤ s.mode.toNat → s.mode.toNat ≤ 9 → op.resetLeft = [] → op.pressA = false → op.pressB = true → ∃ m : Byte,
        m.toNat = (if s.mode.toNat = 1 then 9 else s.mode.toNat - 1) ∧
        step s = .next { s with
          turns := ts, mode := m, fore := some { op with pressB := false, resetLeft := resetFields } }) ∧
      ((s.mode.toNat = 0 ∨ 10 ≤ s.mode.toNat) → op.resetLeft = [] → (op.pressA = true ∨ op.pressB = true) →
        step s = .fault (.raised (.modeOutOfRange s.mode))) ∧
      (∀ a b, op.resetLeft = [] → op.pressA = false → op.pressB = false → op.levels = some (a, b) →
        step s = .next { s with turns := ts, prevA := a, prevB := b, fore := none })

/-- R180, R181, R197: a split reaction that no tick interrupts, its reset writes in any order, ends in the state of
the one-step poll; and under the reference schedule (the model's field order, log entry 1) it does end, within 15
steps. The split form is the spec's own decision D10. -/
def Obligations.UninterruptedSplitPollEqualsOneStepPoll : Prop :=
  ∀ (s : State) (a b : Bool), s.stopped = false → s.fore = none → s.params.atomicModeChange = false →
    1 ≤ s.mode.toNat → s.mode.toNat ≤ 9 →
      let started := { s with fore := some (pollOperation a b s) }
      (∀ k t, k ≤ s.turns.length → (∀ x ∈ s.turns, ∃ f, x = .foreground f) →
        Sys2Proof.core.run k started = .next t → t.fore = none →
          t = { pollReaction a b s with turns := s.turns.drop k }) ∧
      (s.turns = [] → s.script = [] → s.pend = false →
        Sys2Proof.core.run 15 started = .next (pollReaction a b s))

/-- R263, the example: mode 6, digits (9, 9), ACC and BCD_U already reset: a tick sees (0, 9) and outputs 0x89; when
the reset has ended, the next tick outputs 0x08. The reset's writes are in the listed order. The spec derives the
example from its rules. -/
def Obligations.RaceLeavesBcdDigitsThatRunOn : Prop :=
  ∀ s : State, s.stopped = false → s.mode = 6#8 → s.ms.bcdU = 0#4 → s.ms.bcdT = 9#4 → s.pend = true → s.ten = true →
    s.fore = some { levels := some (false, true), pressA := false, pressB := false,
                    resetLeft := [.bcdT, .snakeIdx, .queueIdx, .lfsr] } →
    s.turns = [.tick] → s.script = [0x00#8] →
      (∃ t, Sys2Proof.core.run 1 s = .next t ∧ t.out = some 0x89#8) ∧
      (∃ t, Sys2Proof.core.run 6 s = .next t ∧ t.fore = none ∧ t.ms.bcdT = 0#4 ∧ t.ms.bcdU = 9#4) ∧
      ∃ t, Sys2Proof.core.run 8 s = .next t ∧ t.out = some 0x08#8

/-- R263: in the modes whose state is one field, a tick inside the last reset of a reaction does no lasting harm. Once
that field `f` has been reset (and the reaction has no press left), `f` advances only by the ticks taken, whatever the
schedule, to the end of the reaction and beyond. The spec derives this from its rules. -/
def Obligations.SingleFieldModesRecoverFromTheRace : Prop :=
  ∀ (k : Nat) (s t : State) (op : Foreground) (f : ModeField), s.Inv → s.fore = some op →
    op.pressA = false → op.pressB = false → singleField s.mode = some f → f ∉ op.resetLeft →
    (∀ w ∈ s.script, w = 0x00#8) → Sys2Proof.core.run k s = .next t →
      t.mode = s.mode ∧ t.ms.read f = (fieldAdvance s.mode)^[ticksTaken k s] (s.ms.read f)

/-! ## Power-on -/

/-- R260: `HWRESET` writes the table of R260, at any time with FAULT empty, discards the foreground operation, and
keeps the tables, the parameters and FAULT. PEND, TEN, OUT and the previous levels at reset are the spec's own
decisions D9, D11, D12, D13. -/
def Obligations.HwResetWritesTheResetTable : Prop :=
  decodeEvent 0xC2#8 = .ok .hwReset ∧
  (∀ s : State, ∃ t, exec .hwReset s = .next t ∧ t.mode.toNat = 1 ∧
    t.ms.acc.toNat = 0 ∧ t.ms.bcdU.toNat = 0 ∧ t.ms.bcdT.toNat = 0 ∧ t.ms.snakeIdx.toNat = 0 ∧
    t.ms.queueIdx.toNat = 0 ∧ t.ms.lfsr.toNat = 57 ∧
    t.prevA = s.params.btnPrevResetA ∧ t.prevB = s.params.btnPrevResetB ∧ t.pend = false ∧ t.ten = false ∧
    t.out = none ∧ t.fore = none ∧ SameConstants s t ∧ SameModelFields s t) ∧
  ∀ (s : State) (ws : List Byte) (ts : List Turn), s.stopped = false → s.turns = .environment :: ts →
    s.script = 0xC2#8 :: ws → step s = exec .hwReset { s with script := ws, turns := ts }

/-- R261: the initial state is the state after `HWRESET`: from a state with FAULT empty and nothing to come, `HWRESET`
gives the initial state of that block; and the interrupt is masked in it. The masked interrupt is the spec's own
decision D9. -/
def Obligations.InitialStateIsTheStateAfterHwReset : Prop :=
  (∀ s : State, s.stopped = false → s.script = [] → s.turns = [] →
    exec .hwReset s = .next (State.resetWith s.params s.snakeRom s.queueRom)) ∧
  State.reset = State.resetWith Config.params State.reset.snakeRom State.reset.queueRom ∧
  (∀ i : Fin 11, memRead .snakeRom i.val State.reset = .ok (Config.snakeTable i)) ∧
  (∀ i : Fin 35, memRead .queueRom i.val State.reset = .ok (Config.queueTable i)) ∧ State.reset.ten = false

/-- R272: after power-on, a tick between `TICK_ENABLE` and the startup `RESET_STATES` outputs 0x00 and leaves ACC = 1;
the startup reset takes ACC back to 0, so the next tick outputs 0x00 again; in either form. The spec derives this from
its rules; the order of the six resets is the reference schedule's (log entry 1). -/
def Obligations.TickBeforeStartupResetIsHarmless : Prop :=
  ∀ (p : Params) (snake : Vector Byte 11) (queue : Vector Byte 35),
    let s := { State.resetWith p snake queue with script := [0xC1#8, 0x00#8, 0x80#8, 0x00#8] }
    (∃ t, Sys2Proof.core.run 3 s = .next t ∧ t.out = some 0x00#8 ∧ t.ms = { ModeState.initial with acc := 1#8 }) ∧
    ∃ t, Sys2Proof.core.run 12 s = .next t ∧ t.mode = 1#8 ∧ t.out = some 0x00#8 ∧
      t.ms = { ModeState.initial with acc := 1#8 }

/-! ## Whole-machine rules -/

/-- R225, R31, R223: over every step, PEND is set only by `EXPIRE` and cleared only by a tick or `HWRESET`, and a tick
that completes clears it; TEN is written only by `TICK_ENABLE`, `TICK_DISABLE` and `HWRESET`. The flags are the spec's
own decisions D8 and D9. -/
def Obligations.PendAndTenHaveTheirWriters : Prop :=
  ∀ s t : State, step s = .next t →
    (s.pend = false → t.pend = true → (nextAction s).1 = .event .expire) ∧
    (s.pend = true → t.pend = false → (nextAction s).1 = .service ∨ (nextAction s).1 = .event .hwReset) ∧
    ((nextAction s).1 = .service → t.pend = false) ∧
    (t.ten ≠ s.ten → (nextAction s).1 = .event .tickEnable ∨ (nextAction s).1 = .event .tickDisable ∨
      (nextAction s).1 = .event .hwReset)

/-- R21, R29, R32, R84: over every step, OUT is written only by a tick (and becomes unwritten only by `HWRESET`); MODE
and the previous levels only by the poll agent and `HWRESET`, never by a tick. -/
def Obligations.ModeLevelsAndOutHaveTheirWriters : Prop :=
  ∀ s t : State, step s = .next t →
    (t.out ≠ s.out → (nextAction s).1 = .service ∨ ((nextAction s).1 = .event .hwReset ∧ t.out = none)) ∧
    (t.mode ≠ s.mode ∨ t.prevA ≠ s.prevA ∨ t.prevB ≠ s.prevB →
      (∃ a b, (nextAction s).1 = .event (.poll a b)) ∨ (∃ f op, (nextAction s).1 = .foreground f op) ∨
      (nextAction s).1 = .event .hwReset)

/-- R33, R41, R42, R7: no step writes a table entry or a parameter. That the tables are OPEN parameters is the spec's
own decision D4. -/
def Obligations.NoStepWritesTablesOrParameters : Prop :=
  ∀ s t : State, step s = .next t → SameConstants s t

/-- R45, R87: over any run with no `HWRESET` to come, each tick taken leaves one value in OUT, and OUT shows the last
of them, or what it showed at the start if no tick was taken. -/
def Obligations.OutShowsTheLastTick : Prop :=
  ∀ (k : Nat) (s t : State), 0xC2#8 ∉ s.script → Sys2Proof.core.run k s = .next t →
    (outputs k s).length = ticksTaken k s ∧
    t.out = (match (outputs k s).getLast? with | some v => some v | none => s.out)

/-- R38: the initial state meets the invariant, for every value of the OPEN parameters. -/
def Obligations.InitialStateMeetsTheInvariant : Prop :=
  State.reset.Inv ∧ ∀ (p : Params) (snake : Vector Byte 11) (queue : Vector Byte 35),
    (State.resetWith p snake queue).Inv

/-- R38: every step, of either form, on every schedule, keeps the invariant; and so does the recording of what a step
ends in. The spec derives the invariant from its rules; the clause on the operation in progress is the model's (log
entry 5). -/
def Obligations.EveryStepKeepsTheInvariant : Prop :=
  (∀ s t : State, s.Inv → step s = .next t → t.Inv) ∧ ∀ s : State, s.Inv → (advance s).Inv

/-- R88, R221: no step from a state that meets the invariant raises a fault. The spec derives this from its rules. -/
def Obligations.NoFaultIsRaisedFromLegalStates : Prop :=
  ∀ (s : State) (r : FaultReason), s.Inv → step s ≠ .fault (.raised r)

/-- R9, R38, R270: a run from a state that meets the invariant, with no reserved word to come, never stops: after any
number of steps there is a next state, and it meets the invariant. That a step with nothing to do answers the same
state is the model's (log entry 1). -/
def Obligations.RunsNeverStop : Prop :=
  ∀ (k : Nat) (s : State), s.Inv → s.fault.refused = false → (∀ w ∈ s.script, ∃ i, decodeEvent w = .ok i) →
    ∃ t, Sys2Proof.core.run k s = .next t ∧ t.Inv

/-- R71: in the one-step form, the machine run on the words of a list of events does what the reference schedule says:
each event, followed by one tick if one is then pending and enabled. The reference schedule is the spec's own decision
D16. -/
def Obligations.ReferenceScheduleRunsAScript : Prop :=
  ∀ (is : List Instr) (s t : State), s.stopped = false → s.fore = none → s.turns = [] → s.script = [] →
    s.params.atomicModeChange = true → (s.pend = false ∨ s.ten = false) → (∀ i ∈ is, i.wfIn .event = true) →
    referenceRun is s = .next t →
      ∃ k, Sys2Proof.core.run k { s with script := is.map encode } = .next t

/-- R268: under the reference schedule an enabled tick is taken within 16 steps, whatever the foreground is doing. The
spec asks only that the tick is taken eventually (decision D15); the bound is that of the model's reference schedule
(log entry 1). -/
def Obligations.EnabledTickIsTakenSoon : Prop :=
  ∀ s : State, s.Inv → s.fault.refused = false → s.turns = [] → s.pend = true → s.ten = true →
    ∃ k, k ≤ 16 ∧ ticksTaken k s = 1
end

