-- ==== Sys2Proof/Laws/Decode.lean ====
section
/-! SUPPORT. What the decoders answer on each word of the opcode table, and that the rows of the two encodings do not
overlap. -/

namespace Sys2Proof

@[simp] theorem decodeMode_inc : decodeMode 0x01#8 = .ok .tickInc := rfl
@[simp] theorem decodeMode_dec : decodeMode 0x02#8 = .ok .tickDec := rfl
@[simp] theorem decodeMode_gray_up : decodeMode 0x03#8 = .ok .tickGrayUp := rfl
@[simp] theorem decodeMode_gray_down : decodeMode 0x04#8 = .ok .tickGrayDown := rfl
@[simp] theorem decodeMode_bcd_up : decodeMode 0x05#8 = .ok .tickBcdUp := rfl
@[simp] theorem decodeMode_bcd_down : decodeMode 0x06#8 = .ok .tickBcdDown := rfl
@[simp] theorem decodeMode_snake : decodeMode 0x07#8 = .ok .tickSnake := rfl
@[simp] theorem decodeMode_queue : decodeMode 0x08#8 = .ok .tickQueue := rfl
@[simp] theorem decodeMode_lfsr : decodeMode 0x09#8 = .ok .tickLfsr := rfl

@[simp] theorem decodeEvent_expire : decodeEvent 0x00#8 = .ok .expire := rfl
@[simp] theorem decodeEvent_poll_both : decodeEvent 0x40#8 = .ok (.poll false false) := rfl
@[simp] theorem decodeEvent_poll_b : decodeEvent 0x41#8 = .ok (.poll true false) := rfl
@[simp] theorem decodeEvent_poll_a : decodeEvent 0x42#8 = .ok (.poll false true) := rfl
@[simp] theorem decodeEvent_poll_idle : decodeEvent 0x43#8 = .ok (.poll true true) := rfl
@[simp] theorem decodeEvent_resetStates : decodeEvent 0x80#8 = .ok .resetStates := rfl
@[simp] theorem decodeEvent_tickDisable : decodeEvent 0xC0#8 = .ok .tickDisable := rfl
@[simp] theorem decodeEvent_tickEnable : decodeEvent 0xC1#8 = .ok .tickEnable := rfl
@[simp] theorem decodeEvent_hwReset : decodeEvent 0xC2#8 = .ok .hwReset := rfl

/-- Two rows hit the same byte never, within an encoding or across the two (R60, R62): 15 rows, each byte at most
one. -/
theorem rows_disjoint : ∀ w : Byte, ((modeRows ++ eventRows).filter (fun r => r.hits w)).length ≤ 1 := by
  decide +kernel

/-- A decoded operation is one of its encoding's operations, and its byte is the one that was decoded. -/
theorem decodeEvent_ok {w : Byte} {i : Instr} (h : decodeEvent w = .ok i) : i.format = .event ∧ encode i = w := by
  have key : ∀ w : Byte, (match decodeEvent w with
      | .ok i => decide (i.format = .event ∧ encode i = w)
      | .error _ => true) = true := by decide +kernel
  simpa [h] using key w

theorem decodeMode_ok {m : Byte} {i : Instr} (h : decodeMode m = .ok i) : i.format = .mode ∧ encode i = m := by
  have key : ∀ m : Byte, (match decodeMode m with
      | .ok i => decide (i.format = .mode ∧ encode i = m)
      | .error _ => true) = true := by decide +kernel
  simpa [h] using key m

/-- No byte is both an event word and a mode (R69). -/
theorem decode_disjoint (w : Byte) : (∃ e, decodeEvent w = .error e) ∨ ∃ e, decodeMode w = .error e := by
  have key : ∀ w : Byte, ((decodeEvent w).toOption.isNone || (decodeMode w).toOption.isNone) = true := by
    decide +kernel
  have hw := key w
  cases he : decodeEvent w with
  | error e => exact .inl ⟨e, rfl⟩
  | ok i =>
    cases hm : decodeMode w with
    | error e => exact .inr ⟨e, rfl⟩
    | ok j => simp [he, hm, Except.toOption] at hw

end Sys2Proof
end

