-- ==== Sys2Proof/Laws/State.lean ====
section
/-! SUPPORT. One lemma per field per update: what each shared operation leaves in each field of the state. Every later
proof reads a field of an updated state through these, so none unfolds a record update. -/

namespace Sys2Proof.Machine

/-! ### `memWriteOut` -/

@[simp] theorem memWriteOut_mode (v : Byte) (s : State) : (memWriteOut v s).mode = s.mode := rfl
@[simp] theorem memWriteOut_ms (v : Byte) (s : State) : (memWriteOut v s).ms = s.ms := rfl
@[simp] theorem memWriteOut_prevA (v : Byte) (s : State) : (memWriteOut v s).prevA = s.prevA := rfl
@[simp] theorem memWriteOut_prevB (v : Byte) (s : State) : (memWriteOut v s).prevB = s.prevB := rfl
@[simp] theorem memWriteOut_pend (v : Byte) (s : State) : (memWriteOut v s).pend = s.pend := rfl
@[simp] theorem memWriteOut_ten (v : Byte) (s : State) : (memWriteOut v s).ten = s.ten := rfl
@[simp] theorem memWriteOut_out (v : Byte) (s : State) : (memWriteOut v s).out = some v := rfl
@[simp] theorem memWriteOut_snakeRom (v : Byte) (s : State) : (memWriteOut v s).snakeRom = s.snakeRom := rfl
@[simp] theorem memWriteOut_queueRom (v : Byte) (s : State) : (memWriteOut v s).queueRom = s.queueRom := rfl
@[simp] theorem memWriteOut_fore (v : Byte) (s : State) : (memWriteOut v s).fore = s.fore := rfl
@[simp] theorem memWriteOut_fault (v : Byte) (s : State) : (memWriteOut v s).fault = s.fault := rfl
@[simp] theorem memWriteOut_params (v : Byte) (s : State) : (memWriteOut v s).params = s.params := rfl
@[simp] theorem memWriteOut_script (v : Byte) (s : State) : (memWriteOut v s).script = s.script := rfl
@[simp] theorem memWriteOut_turns (v : Byte) (s : State) : (memWriteOut v s).turns = s.turns := rfl

/-! ### `setPend` -/

@[simp] theorem setPend_mode (s : State) : (setPend s).mode = s.mode := rfl
@[simp] theorem setPend_ms (s : State) : (setPend s).ms = s.ms := rfl
@[simp] theorem setPend_prevA (s : State) : (setPend s).prevA = s.prevA := rfl
@[simp] theorem setPend_prevB (s : State) : (setPend s).prevB = s.prevB := rfl
@[simp] theorem setPend_pend (s : State) : (setPend s).pend = true := rfl
@[simp] theorem setPend_ten (s : State) : (setPend s).ten = s.ten := rfl
@[simp] theorem setPend_out (s : State) : (setPend s).out = s.out := rfl
@[simp] theorem setPend_snakeRom (s : State) : (setPend s).snakeRom = s.snakeRom := rfl
@[simp] theorem setPend_queueRom (s : State) : (setPend s).queueRom = s.queueRom := rfl
@[simp] theorem setPend_fore (s : State) : (setPend s).fore = s.fore := rfl
@[simp] theorem setPend_fault (s : State) : (setPend s).fault = s.fault := rfl
@[simp] theorem setPend_params (s : State) : (setPend s).params = s.params := rfl
@[simp] theorem setPend_script (s : State) : (setPend s).script = s.script := rfl
@[simp] theorem setPend_turns (s : State) : (setPend s).turns = s.turns := rfl

/-! ### `clearPend` -/

@[simp] theorem clearPend_mode (s : State) : (clearPend s).mode = s.mode := rfl
@[simp] theorem clearPend_ms (s : State) : (clearPend s).ms = s.ms := rfl
@[simp] theorem clearPend_prevA (s : State) : (clearPend s).prevA = s.prevA := rfl
@[simp] theorem clearPend_prevB (s : State) : (clearPend s).prevB = s.prevB := rfl
@[simp] theorem clearPend_pend (s : State) : (clearPend s).pend = false := rfl
@[simp] theorem clearPend_ten (s : State) : (clearPend s).ten = s.ten := rfl
@[simp] theorem clearPend_out (s : State) : (clearPend s).out = s.out := rfl
@[simp] theorem clearPend_snakeRom (s : State) : (clearPend s).snakeRom = s.snakeRom := rfl
@[simp] theorem clearPend_queueRom (s : State) : (clearPend s).queueRom = s.queueRom := rfl
@[simp] theorem clearPend_fore (s : State) : (clearPend s).fore = s.fore := rfl
@[simp] theorem clearPend_fault (s : State) : (clearPend s).fault = s.fault := rfl
@[simp] theorem clearPend_params (s : State) : (clearPend s).params = s.params := rfl
@[simp] theorem clearPend_script (s : State) : (clearPend s).script = s.script := rfl
@[simp] theorem clearPend_turns (s : State) : (clearPend s).turns = s.turns := rfl

/-! ### `setTen` -/

@[simp] theorem setTen_mode (v : Bool) (s : State) : (setTen v s).mode = s.mode := rfl
@[simp] theorem setTen_ms (v : Bool) (s : State) : (setTen v s).ms = s.ms := rfl
@[simp] theorem setTen_prevA (v : Bool) (s : State) : (setTen v s).prevA = s.prevA := rfl
@[simp] theorem setTen_prevB (v : Bool) (s : State) : (setTen v s).prevB = s.prevB := rfl
@[simp] theorem setTen_pend (v : Bool) (s : State) : (setTen v s).pend = s.pend := rfl
@[simp] theorem setTen_ten (v : Bool) (s : State) : (setTen v s).ten = v := rfl
@[simp] theorem setTen_out (v : Bool) (s : State) : (setTen v s).out = s.out := rfl
@[simp] theorem setTen_snakeRom (v : Bool) (s : State) : (setTen v s).snakeRom = s.snakeRom := rfl
@[simp] theorem setTen_queueRom (v : Bool) (s : State) : (setTen v s).queueRom = s.queueRom := rfl
@[simp] theorem setTen_fore (v : Bool) (s : State) : (setTen v s).fore = s.fore := rfl
@[simp] theorem setTen_fault (v : Bool) (s : State) : (setTen v s).fault = s.fault := rfl
@[simp] theorem setTen_params (v : Bool) (s : State) : (setTen v s).params = s.params := rfl
@[simp] theorem setTen_script (v : Bool) (s : State) : (setTen v s).script = s.script := rfl
@[simp] theorem setTen_turns (v : Bool) (s : State) : (setTen v s).turns = s.turns := rfl

/-! ### `completeTick` -/

@[simp] theorem completeTick_mode (r : Byte × ModeState) (s : State) : (completeTick r s).mode = s.mode := rfl
@[simp] theorem completeTick_ms (r : Byte × ModeState) (s : State) : (completeTick r s).ms = r.2 := rfl
@[simp] theorem completeTick_prevA (r : Byte × ModeState) (s : State) : (completeTick r s).prevA = s.prevA := rfl
@[simp] theorem completeTick_prevB (r : Byte × ModeState) (s : State) : (completeTick r s).prevB = s.prevB := rfl
@[simp] theorem completeTick_pend (r : Byte × ModeState) (s : State) : (completeTick r s).pend = false := rfl
@[simp] theorem completeTick_ten (r : Byte × ModeState) (s : State) : (completeTick r s).ten = s.ten := rfl
@[simp] theorem completeTick_out (r : Byte × ModeState) (s : State) : (completeTick r s).out = some r.1 := rfl
@[simp] theorem completeTick_snakeRom (r : Byte × ModeState) (s : State) : (completeTick r s).snakeRom = s.snakeRom := rfl
@[simp] theorem completeTick_queueRom (r : Byte × ModeState) (s : State) : (completeTick r s).queueRom = s.queueRom := rfl
@[simp] theorem completeTick_fore (r : Byte × ModeState) (s : State) : (completeTick r s).fore = s.fore := rfl
@[simp] theorem completeTick_fault (r : Byte × ModeState) (s : State) : (completeTick r s).fault = s.fault := rfl
@[simp] theorem completeTick_params (r : Byte × ModeState) (s : State) : (completeTick r s).params = s.params := rfl
@[simp] theorem completeTick_script (r : Byte × ModeState) (s : State) : (completeTick r s).script = s.script := rfl
@[simp] theorem completeTick_turns (r : Byte × ModeState) (s : State) : (completeTick r s).turns = s.turns := rfl

/-! ### `resetAll` -/

@[simp] theorem resetAll_mode (s : State) : (resetAll s).mode = s.mode := rfl
@[simp] theorem resetAll_ms (s : State) : (resetAll s).ms = ModeState.initial := rfl
@[simp] theorem resetAll_prevA (s : State) : (resetAll s).prevA = s.prevA := rfl
@[simp] theorem resetAll_prevB (s : State) : (resetAll s).prevB = s.prevB := rfl
@[simp] theorem resetAll_pend (s : State) : (resetAll s).pend = s.pend := rfl
@[simp] theorem resetAll_ten (s : State) : (resetAll s).ten = s.ten := rfl
@[simp] theorem resetAll_out (s : State) : (resetAll s).out = s.out := rfl
@[simp] theorem resetAll_snakeRom (s : State) : (resetAll s).snakeRom = s.snakeRom := rfl
@[simp] theorem resetAll_queueRom (s : State) : (resetAll s).queueRom = s.queueRom := rfl
@[simp] theorem resetAll_fore (s : State) : (resetAll s).fore = s.fore := rfl
@[simp] theorem resetAll_fault (s : State) : (resetAll s).fault = s.fault := rfl
@[simp] theorem resetAll_params (s : State) : (resetAll s).params = s.params := rfl
@[simp] theorem resetAll_script (s : State) : (resetAll s).script = s.script := rfl
@[simp] theorem resetAll_turns (s : State) : (resetAll s).turns = s.turns := rfl

/-! ### `writeMode` -/

@[simp] theorem writeMode_mode (m : Byte) (s : State) : (writeMode m s).mode = m := rfl
@[simp] theorem writeMode_ms (m : Byte) (s : State) : (writeMode m s).ms = s.ms := rfl
@[simp] theorem writeMode_prevA (m : Byte) (s : State) : (writeMode m s).prevA = s.prevA := rfl
@[simp] theorem writeMode_prevB (m : Byte) (s : State) : (writeMode m s).prevB = s.prevB := rfl
@[simp] theorem writeMode_pend (m : Byte) (s : State) : (writeMode m s).pend = s.pend := rfl
@[simp] theorem writeMode_ten (m : Byte) (s : State) : (writeMode m s).ten = s.ten := rfl
@[simp] theorem writeMode_out (m : Byte) (s : State) : (writeMode m s).out = s.out := rfl
@[simp] theorem writeMode_snakeRom (m : Byte) (s : State) : (writeMode m s).snakeRom = s.snakeRom := rfl
@[simp] theorem writeMode_queueRom (m : Byte) (s : State) : (writeMode m s).queueRom = s.queueRom := rfl
@[simp] theorem writeMode_fore (m : Byte) (s : State) : (writeMode m s).fore = s.fore := rfl
@[simp] theorem writeMode_fault (m : Byte) (s : State) : (writeMode m s).fault = s.fault := rfl
@[simp] theorem writeMode_params (m : Byte) (s : State) : (writeMode m s).params = s.params := rfl
@[simp] theorem writeMode_script (m : Byte) (s : State) : (writeMode m s).script = s.script := rfl
@[simp] theorem writeMode_turns (m : Byte) (s : State) : (writeMode m s).turns = s.turns := rfl

/-! ### `rememberLevels` -/

@[simp] theorem rememberLevels_mode (a b : Bool) (s : State) : (rememberLevels a b s).mode = s.mode := rfl
@[simp] theorem rememberLevels_ms (a b : Bool) (s : State) : (rememberLevels a b s).ms = s.ms := rfl
@[simp] theorem rememberLevels_prevA (a b : Bool) (s : State) : (rememberLevels a b s).prevA = a := rfl
@[simp] theorem rememberLevels_prevB (a b : Bool) (s : State) : (rememberLevels a b s).prevB = b := rfl
@[simp] theorem rememberLevels_pend (a b : Bool) (s : State) : (rememberLevels a b s).pend = s.pend := rfl
@[simp] theorem rememberLevels_ten (a b : Bool) (s : State) : (rememberLevels a b s).ten = s.ten := rfl
@[simp] theorem rememberLevels_out (a b : Bool) (s : State) : (rememberLevels a b s).out = s.out := rfl
@[simp] theorem rememberLevels_snakeRom (a b : Bool) (s : State) : (rememberLevels a b s).snakeRom = s.snakeRom := rfl
@[simp] theorem rememberLevels_queueRom (a b : Bool) (s : State) : (rememberLevels a b s).queueRom = s.queueRom := rfl
@[simp] theorem rememberLevels_fore (a b : Bool) (s : State) : (rememberLevels a b s).fore = s.fore := rfl
@[simp] theorem rememberLevels_fault (a b : Bool) (s : State) : (rememberLevels a b s).fault = s.fault := rfl
@[simp] theorem rememberLevels_params (a b : Bool) (s : State) : (rememberLevels a b s).params = s.params := rfl
@[simp] theorem rememberLevels_script (a b : Bool) (s : State) : (rememberLevels a b s).script = s.script := rfl
@[simp] theorem rememberLevels_turns (a b : Bool) (s : State) : (rememberLevels a b s).turns = s.turns := rfl

/-! ### `holdForeground` -/

@[simp] theorem holdForeground_mode (op : Foreground) (s : State) : (holdForeground op s).mode = s.mode := rfl
@[simp] theorem holdForeground_ms (op : Foreground) (s : State) : (holdForeground op s).ms = s.ms := rfl
@[simp] theorem holdForeground_prevA (op : Foreground) (s : State) : (holdForeground op s).prevA = s.prevA := rfl
@[simp] theorem holdForeground_prevB (op : Foreground) (s : State) : (holdForeground op s).prevB = s.prevB := rfl
@[simp] theorem holdForeground_pend (op : Foreground) (s : State) : (holdForeground op s).pend = s.pend := rfl
@[simp] theorem holdForeground_ten (op : Foreground) (s : State) : (holdForeground op s).ten = s.ten := rfl
@[simp] theorem holdForeground_out (op : Foreground) (s : State) : (holdForeground op s).out = s.out := rfl
@[simp] theorem holdForeground_snakeRom (op : Foreground) (s : State) : (holdForeground op s).snakeRom = s.snakeRom := rfl
@[simp] theorem holdForeground_queueRom (op : Foreground) (s : State) : (holdForeground op s).queueRom = s.queueRom := rfl
@[simp] theorem holdForeground_fore (op : Foreground) (s : State) : (holdForeground op s).fore = if op.done then none else some op := rfl
@[simp] theorem holdForeground_fault (op : Foreground) (s : State) : (holdForeground op s).fault = s.fault := rfl
@[simp] theorem holdForeground_params (op : Foreground) (s : State) : (holdForeground op s).params = s.params := rfl
@[simp] theorem holdForeground_script (op : Foreground) (s : State) : (holdForeground op s).script = s.script := rfl
@[simp] theorem holdForeground_turns (op : Foreground) (s : State) : (holdForeground op s).turns = s.turns := rfl

/-! ### `powerOn` -/

@[simp] theorem powerOn_mode (s : State) : (powerOn s).mode = 1#8 := rfl
@[simp] theorem powerOn_ms (s : State) : (powerOn s).ms = ModeState.initial := rfl
@[simp] theorem powerOn_prevA (s : State) : (powerOn s).prevA = s.params.btnPrevResetA := rfl
@[simp] theorem powerOn_prevB (s : State) : (powerOn s).prevB = s.params.btnPrevResetB := rfl
@[simp] theorem powerOn_pend (s : State) : (powerOn s).pend = false := rfl
@[simp] theorem powerOn_ten (s : State) : (powerOn s).ten = false := rfl
@[simp] theorem powerOn_out (s : State) : (powerOn s).out = none := rfl
@[simp] theorem powerOn_snakeRom (s : State) : (powerOn s).snakeRom = s.snakeRom := rfl
@[simp] theorem powerOn_queueRom (s : State) : (powerOn s).queueRom = s.queueRom := rfl
@[simp] theorem powerOn_fore (s : State) : (powerOn s).fore = none := rfl
@[simp] theorem powerOn_fault (s : State) : (powerOn s).fault = s.fault := rfl
@[simp] theorem powerOn_params (s : State) : (powerOn s).params = s.params := rfl
@[simp] theorem powerOn_script (s : State) : (powerOn s).script = s.script := rfl
@[simp] theorem powerOn_turns (s : State) : (powerOn s).turns = s.turns := rfl

/-! ### ResetStates, field by field -/

/-- The field a reset step writes holds its reset value. -/
@[simp] theorem read_resetField_self (f : ModeField) (ms : ModeState) :
    (ms.resetField f).read f = ModeState.initial.read f := by
  cases f <;> rfl

/-- A reset step writes no other field. -/
theorem read_resetField_of_ne {f g : ModeField} (h : g ≠ f) (ms : ModeState) :
    (ms.resetField f).read g = ms.read g := by
  cases f <;> cases g <;> first | rfl | exact absurd rfl h

/-- The six registers, read by name, are the whole of ModeState. -/
theorem ModeState.ext_read {a b : ModeState} (h : ∀ f, a.read f = b.read f) : a = b := by
  have h1 := h .acc; have h2 := h .bcdU; have h3 := h .bcdT
  have h4 := h .snakeIdx; have h5 := h .queueIdx; have h6 := h .lfsr
  cases a; cases b
  simp only [ModeState.read, BitVec.toNat_inj] at h1 h2 h3 h4 h5 h6
  subst h1 h2 h3 h4 h5 h6
  rfl

end Sys2Proof.Machine
end

