-- ==== Sys2Proof/Laws/Ops.lean ====
section
/-! SUPPORT. One lemma per shared operation, saying once what it answers: table reads, MODE stepping, the end of a tick,
what each kind of operation may write, and the steps of the foreground's split form. -/

namespace Sys2Proof.Machine

/-! ### Tables -/

/-- A read of the snake table: the entry, or the fault of an index beyond it (R41, R43). -/
theorem memRead_snakeRom (i : Nat) (s : State) :
    memRead .snakeRom i s =
      if h : i < Config.nSnake then .ok s.snakeRom[i] else .error (.indexOutOfRange .snakeRom i) := by
  by_cases h : i < Config.nSnake <;> simp [memRead, State.romEntries, h]

/-- A read of the queue table (R42, R43). -/
theorem memRead_queueRom (i : Nat) (s : State) :
    memRead .queueRom i s =
      if h : i < Config.nQueue then .ok s.queueRom[i] else .error (.indexOutOfRange .queueRom i) := by
  by_cases h : i < Config.nQueue <;> simp [memRead, State.romEntries, h]

/-- States with the same tables read the same. -/
theorem memRead_congr {s t : State} (hs : t.snakeRom = s.snakeRom) (hq : t.queueRom = s.queueRom) (space : Rom)
    (i : Nat) : memRead space i t = memRead space i s := by
  cases space <;> simp [memRead, State.romEntries, hs, hq]

/-! ### MODE -/

theorem legalMode_iff (m : Byte) : legalMode m = true ↔ 1 ≤ m.toNat ∧ m.toNat ≤ 9 := by
  simp [legalMode, Config.nModes]

/-- The next mode, with its wrap from 9 to 1 (R193). -/
theorem nextMode_toNat {m : Byte} (h : legalMode m = true) : (nextMode m).toNat = m.toNat % 9 + 1 := by
  obtain ⟨h1, h9⟩ := (legalMode_iff m).1 h
  by_cases hm : m = 9#8
  · subst hm; rfl
  · have : m.toNat ≠ 9 := fun e => hm (BitVec.eq_of_toNat_eq e)
    simp [nextMode, hm]
    omega

/-- The previous mode, with its wrap from 1 to 9 (R194). -/
theorem prevMode_toNat {m : Byte} (h : legalMode m = true) : (prevMode m).toNat = (m.toNat + 7) % 9 + 1 := by
  obtain ⟨h1, h9⟩ := (legalMode_iff m).1 h
  by_cases hm : m = 1#8
  · subst hm; rfl
  · have : m.toNat ≠ 1 := fun e => hm (BitVec.eq_of_toNat_eq e)
    simp [prevMode, hm]
    omega

theorem legalMode_nextMode {m : Byte} (h : legalMode m = true) : legalMode (nextMode m) = true := by
  rw [legalMode_iff, nextMode_toNat h]; omega

theorem legalMode_prevMode {m : Byte} (h : legalMode m = true) : legalMode (prevMode m) = true := by
  rw [legalMode_iff, prevMode_toNat h]; omega

/-! ### The outcome of a poll and of a tick -/

@[simp] theorem raise_ne_next (r : FaultReason) (t : State) : raise r ≠ .next t := by simp [raise]

/-- The one-step reaction is the sequence of R190: MODE_NEXT if A is pressed, each with its own check of MODE, then
MODE_PREV if B is, then the levels. This is the form of R190's pseudocode; `execPoll` tests MODE once. -/
theorem execPoll_eq_sequence (a b : Bool) (s : State) (h : s.params.atomicModeChange = true) :
    execPoll a b s =
      (match (if s.edgeA a then (if legalMode s.mode then .next (modeNext s) else raise (.modeOutOfRange s.mode))
          else .next s : Result) with
        | .next s1 =>
          match (if s.edgeB b then (if legalMode s1.mode then .next (modePrev s1) else raise (.modeOutOfRange s1.mode))
            else .next s1 : Result) with
          | .next s2 => .next (rememberLevels a b s2)
          | r => r
        | r => r) := by
  unfold execPoll pollFaults pollReaction
  cases hA : s.edgeA a <;> cases hB : s.edgeB b <;> cases hL : legalMode s.mode <;>
    simp [h, hL, raise, modeNext, legalMode_nextMode]

/-- A table tick completes exactly when its rule finds an entry. -/
theorem tableTick_next {r : Except FaultReason (Byte × ModeState)} {s t : State} (h : tableTick r s = .next t) :
    ∃ x, r = .ok x ∧ t = completeTick x s := by
  cases r with
  | ok x => exact ⟨x, rfl, by simpa [tableTick] using h.symm⟩
  | error e => simp [tableTick] at h

/-- What a tick operation leaves: the end of a tick over some output and ModeState (R81). -/
theorem exec_tick_next {i : Instr} {s t : State} (hi : i.format = .mode) (h : exec i s = .next t) :
    ∃ r, t = completeTick r s := by
  cases i <;> simp only [Instr.format, reduceCtorEq] at hi
  case tickSnake => exact let ⟨x, _, e⟩ := tableTick_next h; ⟨x, e⟩
  case tickQueue => exact let ⟨x, _, e⟩ := tableTick_next h; ⟨x, e⟩
  all_goals exact ⟨_, (Host.Outcome.next.inj h).symm⟩

/-- No operation writes the tables, the parameters, FAULT or what the environment will do. -/
theorem exec_keeps {i : Instr} {s t : State} (h : exec i s = .next t) :
    t.snakeRom = s.snakeRom ∧ t.queueRom = s.queueRom ∧ t.params = s.params ∧ t.fault = s.fault ∧
      t.script = s.script ∧ t.turns = s.turns := by
  by_cases hi : i.format = .mode
  · obtain ⟨r, rfl⟩ := exec_tick_next hi h
    simp
  · cases i <;> simp only [Instr.format, not_true_eq_false] at hi
    case poll a b =>
      simp only [exec, execPoll] at h
      split at h
      · simp at h
      · cases Host.Outcome.next.inj h
        split <;> try simp
        simp only [pollReaction]
        split <;> split <;> simp [modeNext, modePrev]
    case resetStates =>
      cases Host.Outcome.next.inj h
      split <;> simp
    all_goals
      cases Host.Outcome.next.inj h
      simp

/-! ### The split form -/

/-- The step that writes MODE, when it completes. -/
theorem pressStep_next {m : Byte} {op : Foreground} {s t : State} (h : pressStep m op s = .next t) :
    legalMode s.mode = true ∧ t = holdForeground { op with resetLeft := resetFields } (writeMode m s) := by
  unfold pressStep at h
  split at h
  · exact ⟨‹_›, (Host.Outcome.next.inj h).symm⟩
  · simp at h

/-- Everything a step of the foreground's split operation can do (R197): write one field still to reset, write MODE for
the press of A, for the press of B, write the levels, or close an operation with nothing left. -/
theorem foregroundStep_next {f : ModeField} {op : Foreground} {s t : State}
    (h : foregroundStep f op s = some (.next t)) :
    (f ∈ op.resetLeft ∧
      t = holdForeground { op with resetLeft := op.resetLeft.erase f } { s with ms := s.ms.resetField f }) ∨
    (op.resetLeft = [] ∧ op.pressA = true ∧ pressStep (nextMode s.mode) { op with pressA := false } s = .next t) ∨
    (op.resetLeft = [] ∧ op.pressA = false ∧ op.pressB = true ∧
      pressStep (prevMode s.mode) { op with pressB := false } s = .next t) ∨
    (op.resetLeft = [] ∧ op.pressA = false ∧ op.pressB = false ∧ ∃ a b, op.levels = some (a, b) ∧
      t = holdForeground { op with levels := none } (rememberLevels a b s)) ∨
    (op.resetLeft = [] ∧ op.pressA = false ∧ op.pressB = false ∧ op.levels = none ∧ t = holdForeground op s) := by
  unfold foregroundStep at h
  split at h
  · split at h
    · exact .inl ⟨‹_›, (Host.Outcome.next.inj (Option.some.inj h)).symm⟩
    · simp at h
  · rename_i hr
    have hr : op.resetLeft = [] := not_not.1 hr
    split at h
    · exact .inr (.inl ⟨hr, ‹_›, Option.some.inj h⟩)
    · rename_i hA
      split at h
      · exact .inr (.inr (.inl ⟨hr, by simpa using hA, ‹_›, Option.some.inj h⟩))
      · rename_i hB
        split at h
        · rename_i a b hl
          exact .inr (.inr (.inr (.inl ⟨hr, by simpa using hA, by simpa using hB, a, b, hl,
            (Host.Outcome.next.inj (Option.some.inj h)).symm⟩)))
        · rename_i hl
          exact .inr (.inr (.inr (.inr ⟨hr, by simpa using hA, by simpa using hB, hl,
            (Host.Outcome.next.inj (Option.some.inj h)).symm⟩)))

/-- A step of the foreground's operation writes only MODE, ModeState, the previous levels and its own progress. -/
theorem foregroundStep_keeps {f : ModeField} {op : Foreground} {s t : State}
    (h : foregroundStep f op s = some (.next t)) :
    t.snakeRom = s.snakeRom ∧ t.queueRom = s.queueRom ∧ t.params = s.params ∧ t.fault = s.fault ∧
      t.script = s.script ∧ t.turns = s.turns ∧ t.pend = s.pend ∧ t.ten = s.ten ∧ t.out = s.out := by
  obtain ⟨-, rfl⟩ | ⟨-, -, hp⟩ | ⟨-, -, -, hp⟩ | ⟨-, -, -, a, b, -, rfl⟩ | ⟨-, -, -, -, rfl⟩ := foregroundStep_next h
  · simp
  · obtain ⟨-, rfl⟩ := pressStep_next hp; simp
  · obtain ⟨-, rfl⟩ := pressStep_next hp; simp
  · simp
  · simp

end Sys2Proof.Machine
end

