-- ==== Sys2Proof/Laws/Step.lean ====
section
/-! SUPPORT. Once for all, what one step can do, and how runs are cut: the lemmas later proofs cite instead of unfolding
`step`. -/

namespace Sys2Proof.Machine

/-- Settling whose turn it is consumes at most that turn. -/
theorem nextTurn_snd (s : State) : ∃ turns, (nextTurn s).2 = { s with turns := turns } := by
  unfold nextTurn
  split
  · exact ⟨_, rfl⟩
  · exact ⟨s.turns, rfl⟩

/-- With a turn in the list, the next action is that agent's. -/
theorem nextAction_of_turn {s : State} {t : Turn} {ts : List Turn} (h : s.turns = t :: ts) :
    nextAction s = turnAction t { s with turns := ts } := by
  simp [nextAction, nextTurn, h]

/-- With no turn in the list and the foreground free, a tick goes first if it can be taken. -/
theorem nextAction_of_service {s : State} (h : s.turns = []) (hf : s.fore = none) (he : s.serviceEnabled = true) :
    nextAction s = (.service, s) := by
  simp [nextAction, nextTurn, h, referenceTurn, hf, he, turnAction]

/-- With no turn in the list, the foreground free and no tick to take, the environment delivers, or nothing is done. -/
theorem nextAction_of_quiet {s : State} (h : s.turns = []) (hf : s.fore = none) (he : s.serviceEnabled = false) :
    nextAction s = environmentTurn s := by
  cases hs : s.script <;>
    simp [nextAction, nextTurn, h, referenceTurn, hf, he, turnAction, environmentTurn, hs]

/-- With no turn in the list, an operation in progress goes first, its reset fields in the order they stand. -/
theorem nextAction_of_fore {s : State} {op : Foreground} (h : s.turns = []) (hf : s.fore = some op) :
    nextAction s = (.foreground (op.resetLeft.headD .acc) op, s) := by
  simp [nextAction, nextTurn, h, referenceTurn, hf, turnAction]

/-- A step of a state with FAULT empty performs its next action. -/
theorem step_of_not_stopped {s : State} (h : s.stopped = false) :
    step s = perform (nextAction s).1 (nextAction s).2 := by
  simp [step, h]

/-- What a turn can turn out to be. -/
theorem turnAction_cases (t : Turn) (s : State) :
    turnAction t s = (.idle, s) ∨
    (∃ w ws e, s.script = w :: ws ∧ decodeEvent w = .error e ∧
      turnAction t s = (.reserved w, { s with script := ws })) ∨
    (∃ w ws i, s.script = w :: ws ∧ decodeEvent w = .ok i ∧ eventEnabled i s = true ∧
      turnAction t s = (.event i, { s with script := ws })) ∨
    (s.serviceEnabled = true ∧ turnAction t s = (.service, s)) ∨
    (∃ f op, s.fore = some op ∧ turnAction t s = (.foreground f op, s)) := by
  cases t with
  | environment =>
    simp only [turnAction, environmentTurn]
    split
    · exact .inl rfl
    · rename_i w ws hw
      split
      · rename_i e he
        exact .inr (.inl ⟨w, ws, e, hw, he, rfl⟩)
      · rename_i i hi
        split
        · exact .inr (.inr (.inl ⟨w, ws, i, hw, hi, ‹_›, rfl⟩))
        · exact .inl rfl
  | tick =>
    simp only [turnAction]
    split
    · exact .inr (.inr (.inr (.inl ⟨‹_›, rfl⟩)))
    · exact .inl rfl
  | foreground f =>
    simp only [turnAction]
    split
    · rename_i op hop
      exact .inr (.inr (.inr (.inr ⟨f, op, hop, rfl⟩)))
    · exact .inl rfl

/-- Choosing the next action consumes at most a turn and a word: every other field is as it was. -/
theorem nextAction_snd (s : State) :
    ∃ script turns, (nextAction s).2 = { s with script := script, turns := turns } := by
  obtain ⟨turns, hs⟩ := nextTurn_snd s
  unfold nextAction
  split
  · rename_i t s1 h1
    rw [h1] at hs
    obtain rfl : s1 = _ := hs
    rcases turnAction_cases t { s with turns := turns } with
      h | ⟨w, ws, e, -, -, h⟩ | ⟨w, ws, i, -, -, -, h⟩ | ⟨-, h⟩ | ⟨f, op, -, h⟩ <;> rw [h] <;> exact ⟨_, _, rfl⟩
  · rename_i s1 h1
    rw [h1] at hs
    exact ⟨_, turns, hs⟩

/-- The state the next action is done in is stopped exactly when this one is. -/
theorem nextAction_stopped (s : State) : (nextAction s).2.stopped = s.stopped := by
  obtain ⟨_, _, h⟩ := nextAction_snd s
  rw [h]; rfl

/-- An event is delivered only when enabled, and the word it came from was an event word. -/
theorem nextAction_event {s : State} {i : Instr} (h : (nextAction s).1 = .event i) :
    (∃ w, decodeEvent w = .ok i) ∧ eventEnabled i (nextAction s).2 = true := by
  unfold nextAction at h ⊢
  split at h
  · rename_i t s1 h1
    rcases turnAction_cases t s1 with
      e | ⟨w, ws, e', -, -, e⟩ | ⟨w, ws, j, -, hw, he, e⟩ | ⟨-, e⟩ | ⟨f, op, -, e⟩ <;> rw [e] at h ⊢ <;> cases h
    exact ⟨⟨w, hw⟩, he⟩
  · cases h

/-- SERVICE is the action only when a tick is pending and enabled (R80). -/
theorem nextAction_service {s : State} (h : (nextAction s).1 = .service) :
    s.pend = true ∧ s.ten = true := by
  obtain ⟨_, _, hs⟩ := nextAction_snd s
  have : (nextAction s).2.serviceEnabled = true := by
    unfold nextAction at h ⊢
    split at h
    · rename_i t s1 h1
      rcases turnAction_cases t s1 with
        e | ⟨w, ws, e', -, -, e⟩ | ⟨w, ws, j, -, hw, he, e⟩ | ⟨he, e⟩ | ⟨f, op, -, e⟩ <;> rw [e] at h ⊢ <;> cases h
      exact he
    · cases h
  rw [hs] at this
  simp only [State.serviceEnabled, Bool.and_eq_true] at this
  exact ⟨this.1.1, this.1.2⟩

/-- A foreground action is a step of the operation in progress. -/
theorem nextAction_foreground {s : State} {f : ModeField} {op : Foreground}
    (h : (nextAction s).1 = .foreground f op) : s.fore = some op := by
  obtain ⟨_, _, hs⟩ := nextAction_snd s
  have : (nextAction s).2.fore = some op := by
    unfold nextAction at h ⊢
    split at h
    · rename_i t s1 h1
      rcases turnAction_cases t s1 with
        e | ⟨w, ws, e', -, -, e⟩ | ⟨w, ws, j, -, hw, he, e⟩ | ⟨-, e⟩ | ⟨f', op', hop, e⟩ <;> rw [e] at h ⊢ <;> cases h
      exact hop
    · cases h
  rw [hs] at this
  exact this

/-- Everything a step to a next state can do: nothing (beyond consuming a turn), an event, a tick, or a step of the
foreground's operation. -/
theorem step_next {s t : State} (h : step s = .next t) :
    s.stopped = false ∧
    (((nextAction s).1 = .idle ∧ t = (nextAction s).2) ∨
     (∃ i, (nextAction s).1 = .event i ∧ exec i (nextAction s).2 = .next t) ∨
     ((nextAction s).1 = .service ∧ service (nextAction s).2 = .next t) ∨
     (∃ f op, (nextAction s).1 = .foreground f op ∧
       (foregroundStep f op (nextAction s).2 = some (.next t) ∨ t = (nextAction s).2))) := by
  unfold step at h
  split at h
  · simp at h
  · rename_i hst
    refine ⟨by simpa using hst, ?_⟩
    generalize ha : (nextAction s).1 = a at h
    cases a with
    | idle => exact .inl ⟨rfl, (Host.Outcome.next.inj h).symm⟩
    | event i => exact .inr (.inl ⟨i, rfl, h⟩)
    | reserved w => simp [perform] at h
    | service => exact .inr (.inr (.inl ⟨rfl, h⟩))
    | foreground f op =>
      refine .inr (.inr (.inr ⟨f, op, rfl, ?_⟩))
      simp only [perform] at h
      cases hf : foregroundStep f op (nextAction s).2 with
      | none => rw [hf] at h; exact .inr (Host.Outcome.next.inj h).symm
      | some r => rw [hf] at h; exact .inl (congrArg some h)

/-- A tick that completes is the tick operation that MODE selects (R81, R85). -/
theorem service_next {s t : State} (h : service s = .next t) :
    ∃ i, decodeMode s.mode = .ok i ∧ exec i s = .next t := by
  unfold service at h
  split at h
  · exact ⟨_, ‹_›, h⟩
  · simp at h

/-- A byte that the MODE decoder accepts is a tick operation. -/
theorem format_of_decodeMode {m : Byte} {i : Instr} (h : decodeMode m = .ok i) : i.format = .mode := by
  simp only [decodeMode] at h
  split at h
  · rename_i j hj
    cases h
    unfold lookup modeRows at hj
    simp only [Option.map_eq_some_iff] at hj
    obtain ⟨r, hr, rfl⟩ := hj
    have := List.mem_of_find?_eq_some hr
    simp only [List.mem_cons, List.not_mem_nil, or_false] at this
    rcases this with rfl | rfl | rfl | rfl | rfl | rfl | rfl | rfl | rfl <;> rfl
  · cases h

/-- The end of every tick that completes (R81). -/
theorem service_completes {s t : State} (h : service s = .next t) : ∃ r, t = completeTick r s := by
  obtain ⟨i, hd, he⟩ := service_next h
  exact exec_tick_next (format_of_decodeMode hd) he

/-- A run is a step and then the rest. -/
theorem run_succ (k : Nat) (s : State) :
    Sys2Proof.core.run (k + 1) s =
      match step s with
      | .next t => Sys2Proof.core.run k t
      | .fault r => .fault r
      | .refused r => .refused r := by
  have h : Sys2Proof.core.step s = step s := rfl
  simp only [Host.Core.run, h]
  cases step s <;> rfl

/-- A step to a next state, and the run goes on from there. -/
theorem run_succ_of_next {k : Nat} {s t : State} (h : step s = .next t) :
    Sys2Proof.core.run (k + 1) s = Sys2Proof.core.run k t := by
  rw [run_succ, h]

/-- A run that ends in a next state begins with a step to one. -/
theorem run_succ_next {k : Nat} {s u : State} (h : Sys2Proof.core.run (k + 1) s = .next u) :
    ∃ t, step s = .next t ∧ Sys2Proof.core.run k t = .next u := by
  rw [run_succ] at h
  cases hs : step s with
  | next t => rw [hs] at h; exact ⟨t, rfl, h⟩
  | fault r => rw [hs] at h; cases h
  | refused r => rw [hs] at h; cases h

/-- A run of `m + n` steps is `m` steps and then `n`. -/
theorem run_add (m n : Nat) (s : State) :
    Sys2Proof.core.run (m + n) s =
      match Sys2Proof.core.run m s with
      | .next t => Sys2Proof.core.run n t
      | .fault r => .fault r
      | .refused r => .refused r := by
  induction m generalizing s with
  | zero => simp [Host.Core.run]
  | succ m ih =>
    rw [Nat.succ_add]
    simp only [Host.Core.run]
    cases Sys2Proof.core.step s with
    | next t => exact ih t
    | fault r => rfl
    | refused r => rfl

end Sys2Proof.Machine
end

