-- ==== Sys2Proof/Laws/Legal.lean ====
section
/-! SUPPORT. Legal registers (10_state.md R38) under each update the agents make, and the completion of a tick from
them. -/

namespace Sys2Proof.Machine

/-- The nine legal values of MODE. -/
theorem mode_cases {m : Byte} (h : 1 ≤ m.toNat ∧ m.toNat ≤ 9) :
    m = 1#8 ∨ m = 2#8 ∨ m = 3#8 ∨ m = 4#8 ∨ m = 5#8 ∨ m = 6#8 ∨ m = 7#8 ∨ m = 8#8 ∨ m = 9#8 := by
  have key : ∀ m : Byte, ¬(1 ≤ m.toNat ∧ m.toNat ≤ 9) ∨
      (m = 1#8 ∨ m = 2#8 ∨ m = 3#8 ∨ m = 4#8 ∨ m = 5#8 ∨ m = 6#8 ∨ m = 7#8 ∨ m = 8#8 ∨ m = 9#8) := by decide +kernel
  exact (key m).resolve_left (not_not.2 h)

theorem legal_initial : ModeState.initial.Legal := by simp [ModeState.Legal, ModeState.initial, lfsrOrbit]

theorem legal_resetField (f : ModeField) {ms : ModeState} (h : ms.Legal) : (ms.resetField f).Legal := by
  have seed : Config.lfsrSeed ∈ lfsrOrbit := by decide
  obtain ⟨h1, h2, h3, h4, h5⟩ := h
  cases f <;> simp [ModeState.Legal, ModeState.resetField, h1, h2, h3, h4, h5, seed]

theorem lfsrNext_mem_orbit : ∀ l : Word6, l ∈ lfsrOrbit → lfsrNext l ∈ lfsrOrbit := by decide +kernel

theorem bcdUpDigits_legal {ms : ModeState} (h : ms.Legal) : (bcdUpDigits ms).Legal := by
  obtain ⟨h1, h2, h3, h4, h5⟩ := h
  simp only [bcdUpDigits]
  split <;> simp [ModeState.Legal, h2, h3, h4, h5] <;> omega

theorem bcdDownDigits_legal {ms : ModeState} (h : ms.Legal) : (bcdDownDigits ms).Legal := by
  obtain ⟨h1, h2, h3, h4, h5⟩ := h
  have key : ∀ d : Nibble, d.toNat ≤ 9 → (if d == 0#4 then 9#4 else d - 1#4 : Nibble).toNat ≤ 9 := by decide
  simp only [bcdDownDigits]
  split
  · exact ⟨show (9#4).toNat ≤ 9 by decide, key _ h2, h3, h4, h5⟩
  · rename_i hu
    have := key _ h1
    rw [if_neg hu] at this
    exact ⟨this, h2, h3, h4, h5⟩

/-- SERVICE, once for the nine modes: from legal registers the tick completes, and the new ModeState is legal. -/
theorem service_of_legal {s : State} (hm : 1 ≤ s.mode.toNat ∧ s.mode.toNat ≤ 9) (hl : s.ms.Legal) :
    ∃ r, service s = .next (completeTick r s) ∧ r.2.Legal := by
  have hall := hl
  obtain ⟨h1, h2, h3, h4, h5⟩ := hl
  rcases mode_cases hm with e | e | e | e | e | e | e | e | e <;> simp only [service, e]
  · exact ⟨_, rfl, hall⟩
  · exact ⟨_, rfl, hall⟩
  · exact ⟨_, rfl, by simp only [grayUpRule, grayRule]; split <;> exact hall⟩
  · exact ⟨_, rfl, by simp only [grayDownRule, grayRule]; split <;> exact hall⟩
  · exact ⟨_, rfl, bcdUpDigits_legal hall⟩
  · exact ⟨_, rfl, bcdDownDigits_legal hall⟩
  · have hr := memRead_snakeRom s.ms.snakeIdx.toNat s
    rw [dif_pos (show s.ms.snakeIdx.toNat < Config.nSnake by show _ < 11; omega)] at hr
    refine ⟨(_, { s.ms with snakeIdx := _ }), by simp only [exec, execTickSnake, snakeRule, hr, tableTick]; rfl, ?_⟩
    simp [ModeState.Legal, h1, h2, h4, h5, nextIndex, Config.nSnake]; split <;> omega
  · have hr := memRead_queueRom s.ms.queueIdx.toNat s
    rw [dif_pos (show s.ms.queueIdx.toNat < Config.nQueue by show _ < 35; omega)] at hr
    refine ⟨(_, { s.ms with queueIdx := _ }), by simp only [exec, execTickQueue, queueRule, hr, tableTick]; rfl, ?_⟩
    simp [ModeState.Legal, h1, h2, h3, h5, nextIndex, Config.nQueue]; split <;> omega
  · exact ⟨_, rfl, h1, h2, h3, h4, lfsrNext_mem_orbit _ h5⟩

/-- What a foreground operation leaves in the foreground is well formed, if its parts are (R36). -/
theorem holdForeground_wf {op q : Foreground} {s : State} (h1 : op.resetLeft.Nodup)
    (h2 : op.pressA = true → op.resetLeft = []) (h3 : op.levels = none → op.pressA = false ∧ op.pressB = false)
    (hq : (holdForeground op s).fore = some q) : q.Wf := by
  simp only [holdForeground_fore] at hq
  split at hq
  · cases hq
  · cases hq
    exact ⟨eq_false_of_ne_true ‹¬ _›, h1, h2, h3⟩

end Sys2Proof.Machine
end

