-- ==== Sys2Proof/Laws/PerInstr.lean ====
section
/-! SUPPORT. Statements about every operation as syntax, one lemma per constructor. Family `RoundTrip`: an operation's
byte decodes to it, and in its own encoding only. -/

namespace Sys2Proof.Laws.RoundTrip

/-- The operation's byte is read back as it by the decoder of its encoding, and by the reading of a table word; the
decoder of the other encoding rejects it (30_encoding.md R60, R62, R69). -/
def Statement (i : Instr) : Prop :=
  decodeTableWord 8 (encode i).toNat = some i ∧
    match i.format with
    | .mode => decodeMode (encode i) = .ok i ∧ decodeEvent (encode i) = .error (.reserved (encode i))
    | .event => decodeEvent (encode i) = .ok i ∧ decodeMode (encode i) = .error (.modeOutOfRange (encode i))

theorem tickInc : Statement .tickInc := ⟨rfl, rfl, rfl⟩
theorem tickDec : Statement .tickDec := ⟨rfl, rfl, rfl⟩
theorem tickGrayUp : Statement .tickGrayUp := ⟨rfl, rfl, rfl⟩
theorem tickGrayDown : Statement .tickGrayDown := ⟨rfl, rfl, rfl⟩
theorem tickBcdUp : Statement .tickBcdUp := ⟨rfl, rfl, rfl⟩
theorem tickBcdDown : Statement .tickBcdDown := ⟨rfl, rfl, rfl⟩
theorem tickSnake : Statement .tickSnake := ⟨rfl, rfl, rfl⟩
theorem tickQueue : Statement .tickQueue := ⟨rfl, rfl, rfl⟩
theorem tickLfsr : Statement .tickLfsr := ⟨rfl, rfl, rfl⟩
theorem expire : Statement .expire := ⟨rfl, rfl, rfl⟩
theorem poll (a b : Bool) : Statement (.poll a b) := by
  cases a <;> cases b <;> exact ⟨rfl, rfl, rfl⟩
theorem resetStates : Statement .resetStates := ⟨rfl, rfl, rfl⟩
theorem tickDisable : Statement .tickDisable := ⟨rfl, rfl, rfl⟩
theorem tickEnable : Statement .tickEnable := ⟨rfl, rfl, rfl⟩
theorem hwReset : Statement .hwReset := ⟨rfl, rfl, rfl⟩

end Sys2Proof.Laws.RoundTrip
end

