-- ==== Sys2Proof/Laws/Run.lean ====
section
/-! SUPPORT. Single steps under the reference schedule (30_encoding.md R71), each with what it does, and the unfolding of
`ticksTaken` and `outputs` over one step: what claims about runs are built from. -/

namespace Sys2Proof.Machine

/-- Nothing in progress and no tick to take: the environment's next word is delivered. -/
theorem step_deliver {s : State} {w : Byte} {ws : List Byte} {i : Instr} (h0 : s.stopped = false)
    (ht : s.turns = []) (hf : s.fore = none) (hs : s.serviceEnabled = false) (hw : s.script = w :: ws)
    (hi : decodeEvent w = .ok i) :
    step s = exec i { s with script := ws } ∧ (nextAction s).1 = .event i := by
  have he : eventEnabled i s = true := by simp [eventEnabled, hf]
  rw [step_of_not_stopped h0, nextAction_of_quiet ht hf hs]
  simp only [environmentTurn, hw, hi]
  rw [if_pos he]
  exact ⟨rfl, rfl⟩

/-- Nothing in progress and a tick to take: it is taken. -/
theorem step_tick {s : State} (h0 : s.stopped = false) (ht : s.turns = []) (hf : s.fore = none)
    (hp : s.pend = true) (hten : s.ten = true) :
    step s = service s ∧ (nextAction s).1 = .service := by
  have hs : s.serviceEnabled = true := by simp [State.serviceEnabled, h0, hp, hten]
  rw [step_of_not_stopped h0, nextAction_of_service ht hf hs]
  exact ⟨rfl, rfl⟩

/-- An operation in progress: its next step, a reset field in the listed order. -/
theorem step_foreground {s : State} {op : Foreground} (h0 : s.stopped = false) (ht : s.turns = [])
    (hf : s.fore = some op) :
    step s = (foregroundStep (op.resetLeft.headD .acc) op s).getD (.next s) ∧
      (nextAction s).1 = .foreground (op.resetLeft.headD .acc) op := by
  rw [step_of_not_stopped h0, nextAction_of_fore ht hf]
  exact ⟨rfl, rfl⟩

/-- Nothing to do: the state stays. -/
theorem step_idle {s : State} (h0 : s.stopped = false) (ht : s.turns = []) (hf : s.fore = none)
    (hs : s.serviceEnabled = false) (hw : s.script = []) : step s = .next s ∧ (nextAction s).1 = .idle := by
  rw [step_of_not_stopped h0, nextAction_of_quiet ht hf hs]
  simp [environmentTurn, hw, perform]

/-- A step to a next state keeps the tables, the parameters and FAULT, and delivers words from the front of the
script. -/
theorem step_keeps {s t : State} (h : step s = .next t) :
    t.snakeRom = s.snakeRom ∧ t.queueRom = s.queueRom ∧ t.params = s.params ∧ t.fault = s.fault := by
  obtain ⟨-, h⟩ := step_next h
  obtain ⟨_, _, e⟩ := nextAction_snd s
  have k : (nextAction s).2.snakeRom = s.snakeRom ∧ (nextAction s).2.queueRom = s.queueRom ∧
      (nextAction s).2.params = s.params ∧ (nextAction s).2.fault = s.fault := by simp [e]
  obtain ⟨k1, k2, k3, k4⟩ := k
  obtain ⟨-, rfl⟩ | ⟨i, -, h⟩ | ⟨-, h⟩ | ⟨f, op, -, h | rfl⟩ := h
  · exact ⟨k1, k2, k3, k4⟩
  · obtain ⟨a, b, c, d, -, -⟩ := exec_keeps h
    exact ⟨a.trans k1, b.trans k2, c.trans k3, d.trans k4⟩
  · obtain ⟨i, -, h⟩ := service_next h
    obtain ⟨a, b, c, d, -, -⟩ := exec_keeps h
    exact ⟨a.trans k1, b.trans k2, c.trans k3, d.trans k4⟩
  · obtain ⟨a, b, c, d, -⟩ := foregroundStep_keeps h
    exact ⟨a.trans k1, b.trans k2, c.trans k3, d.trans k4⟩
  · exact ⟨k1, k2, k3, k4⟩

/-- The ticks of a run, one step in. -/
theorem ticksTaken_succ {k : Nat} {s t : State} (h : step s = .next t) :
    ticksTaken (k + 1) s = (if (nextAction s).1 = .service then 1 else 0) + ticksTaken k t := by
  simp only [ticksTaken, h]

/-- The outputs of a run, one step in. -/
theorem outputs_succ {k : Nat} {s t : State} (h : step s = .next t) :
    outputs (k + 1) s = (if (nextAction s).1 = .service then t.out.toList else []) ++ outputs k t := by
  simp only [outputs, h]

end Sys2Proof.Machine
end

