-- ==== Sys2Proof/Tests/Slice0.lean ====
section
/-! SUPPORT. The model's own tests: ill-formed syntax refused; words written out bit by bit from 30_encoding.md, decoded;
one-step vectors of 95_test_vectors.md (section 2, derived by the spec from its rules); and, for each statement with
hypotheses, concrete states that meet them. -/

namespace Sys2Proof.Tests

open Sys2Proof Sys2Proof.Machine

/-! ### A small block -/

/-- A block with tables 0x10, 0x11, ... and 0x80, 0x81, ..., both previous levels high, under the given parameters. -/
def block (order : GrayOrder) (atomic : Bool) : State :=
  State.resetWith ⟨order, atomic, true, true⟩ (Vector.ofFn fun i => BitVec.ofNat 8 (0x10 + i.val))
    (Vector.ofFn fun i => BitVec.ofNat 8 (0x80 + i.val))

/-- The spec's default parameters: `UPDATE_THEN_OUTPUT`, one-step mode change. -/
def uto : State := block .updateThenOutput true

/-- `OUTPUT_THEN_UPDATE`, one-step mode change. -/
def otu : State := block .outputThenUpdate true

/-- The split form. -/
def split : State := block .updateThenOutput false

/-- The block in mode `m` with a tick pending and enabled, its ModeState given. -/
def due (m : Byte) (ms : ModeState) (s : State) : State := { s with mode := m, ms := ms, pend := true, ten := true }

/-- ModeState at reset but for the named values. -/
def ms0 : ModeState := ModeState.initial

/-- The next state, if the step answers one. -/
def next? : Result → Option State
  | .next t => some t
  | .fault _ => none
  | .refused _ => none

/-- Fields of the next state. -/
def see {α : Type} (r : Result) (f : State → α) : Option α := (next? r).map f

/-- The reason, if the step faults. -/
def fault? : Result → Option Fault
  | .next _ => none
  | .fault r => some r
  | .refused _ => none

/-- The reason, if the step is refused. -/
def refusal? : Result → Option Refusal
  | .next _ => none
  | .fault _ => none
  | .refused r => some r

/-- The state after a run, if there is one. -/
def runs (k : Nat) (s : State) : Option State := next? (Sys2Proof.core.run k s)

/-! ### Ill-formed syntax is refused -/

theorem test_wf_tick_is_no_event : (Instr.tickInc).wfIn .event = false := by decide
theorem test_wf_event_is_no_mode : (Instr.poll true false).wfIn .mode = false := by decide
theorem test_wf_ticks_zero : (ScriptLine.ticks 0).wf = false := by decide
theorem test_wf_line_of_a_tick : (ScriptLine.event .tickLfsr).wf = false := by decide
theorem test_wf_good : (Instr.poll true false).wfIn .event = true ∧ (Instr.tickLfsr).wfIn .mode = true ∧
    (ScriptLine.ticks 1).wf = true ∧ (ScriptLine.event .hwReset).wf = true := by decide

/-! ### Words written out from the tables of R60 and R62 -/

theorem test_decode_inc : decodeMode 0b00000001#8 = .ok .tickInc := by decide
theorem test_decode_dec : decodeMode 0b00000010#8 = .ok .tickDec := by decide
theorem test_decode_gray_up : decodeMode 0b00000011#8 = .ok .tickGrayUp := by decide
theorem test_decode_gray_down : decodeMode 0b00000100#8 = .ok .tickGrayDown := by decide
theorem test_decode_bcd_up : decodeMode 0b00000101#8 = .ok .tickBcdUp := by decide
theorem test_decode_bcd_down : decodeMode 0b00000110#8 = .ok .tickBcdDown := by decide
theorem test_decode_snake : decodeMode 0b00000111#8 = .ok .tickSnake := by decide
theorem test_decode_queue : decodeMode 0b00001000#8 = .ok .tickQueue := by decide
theorem test_decode_lfsr : decodeMode 0b00001001#8 = .ok .tickLfsr := by decide
theorem test_decode_mode_out_of_range : decodeMode 0b00000000#8 = .error (.modeOutOfRange 0#8) ∧
    decodeMode 0b00001010#8 = .error (.modeOutOfRange 10#8) := by decide
theorem test_decode_expire : decodeEvent 0b00000000#8 = .ok .expire := by decide
/-- R62, R64: KIND = 01, ARG = 0000 b a; 0x41 has a = 1, b = 0 and 0x42 the reverse. -/
theorem test_decode_poll : decodeEvent 0b01000000#8 = .ok (.poll false false) ∧
    decodeEvent 0b01000001#8 = .ok (.poll true false) ∧ decodeEvent 0b01000010#8 = .ok (.poll false true) ∧
    decodeEvent 0b01000011#8 = .ok (.poll true true) := by decide
theorem test_decode_reset_states : decodeEvent 0b10000000#8 = .ok .resetStates := by decide
theorem test_decode_tick_disable : decodeEvent 0b11000000#8 = .ok .tickDisable := by decide
theorem test_decode_tick_enable : decodeEvent 0b11000001#8 = .ok .tickEnable := by decide
theorem test_decode_hw_reset : decodeEvent 0b11000010#8 = .ok .hwReset := by decide
theorem test_decode_reserved : decodeEvent 0b01000100#8 = .error (.reserved 0x44#8) := by decide
/-- The reading of an opcode-table word: an event word as an event, another byte as a MODE value. -/
theorem test_decode_table_word : decodeTableWord 8 0x42 = some (.poll false true) ∧
    decodeTableWord 8 0x09 = some .tickLfsr ∧ decodeTableWord 8 0x0A = none := by decide

/-- Script text (R70): comment, blank line, operands, a repeat. -/
theorem test_script_text :
    (parseScript "BOOT ; start\n\nPOLL 0, 1\nTICKS 2\nPRESS_B".toList).map assemble =
      some [0xC2#8, 0xC1#8, 0x80#8, 0x42#8, 0x00#8, 0x00#8, 0x41#8, 0x43#8] := by decide
theorem test_script_text_refused : parseScript "TICKS 0".toList = none ∧ parseScript "POLL 0 1".toList = none ∧
    parseScript "tick".toList = none := by decide

/-! ### One step of each operation (95_test_vectors.md, sections 2.2 to 2.11) -/

theorem test_tick_inc_wraps :
    see (step (due 1#8 { ms0 with acc := 0xFF#8 } uto)) (fun t => (t.out, t.ms.acc, t.pend)) =
      some (some 0xFF#8, 0x00#8, false) := by decide
theorem test_tick_dec_wraps :
    see (step (due 2#8 { ms0 with acc := 0x00#8 } uto)) (fun t => (t.out, t.ms.acc, t.pend)) =
      some (some 0x00#8, 0xFF#8, false) := by decide
theorem test_tick_gray_up :
    see (step (due 3#8 { ms0 with acc := 0x7F#8 } uto)) (fun t => (t.out, t.ms.acc)) =
      some (some 0xC0#8, 0x80#8) := by decide
theorem test_tick_gray_up_other_order :
    see (step (due 3#8 { ms0 with acc := 0xFF#8 } otu)) (fun t => (t.out, t.ms.acc)) =
      some (some 0x80#8, 0x00#8) := by decide
theorem test_tick_gray_down :
    see (step (due 4#8 { ms0 with acc := 0x80#8 } uto)) (fun t => (t.out, t.ms.acc)) =
      some (some 0x40#8, 0x7F#8) := by decide
theorem test_tick_gray_down_other_order :
    see (step (due 4#8 { ms0 with acc := 0x00#8 } otu)) (fun t => (t.out, t.ms.acc)) =
      some (some 0x00#8, 0xFF#8) := by decide
theorem test_tick_bcd_up_carries :
    see (step (due 5#8 { ms0 with bcdT := 0#4, bcdU := 9#4 } uto)) (fun t => (t.out, t.ms.bcdT, t.ms.bcdU)) =
      some (some 0x10#8, 1#4, 0#4) := by decide
theorem test_tick_bcd_up_wraps :
    see (step (due 5#8 { ms0 with bcdT := 9#4, bcdU := 9#4 } uto)) (fun t => (t.out, t.ms.bcdT, t.ms.bcdU)) =
      some (some 0x00#8, 0#4, 0#4) := by decide
theorem test_tick_bcd_down_borrows :
    see (step (due 6#8 { ms0 with bcdT := 1#4, bcdU := 0#4 } uto)) (fun t => (t.out, t.ms.bcdT, t.ms.bcdU)) =
      some (some 0x09#8, 0#4, 9#4) := by decide
theorem test_tick_bcd_down_wraps :
    see (step (due 6#8 { ms0 with bcdT := 0#4, bcdU := 0#4 } uto)) (fun t => (t.out, t.ms.bcdT, t.ms.bcdU)) =
      some (some 0x99#8, 9#4, 9#4) := by decide
theorem test_tick_snake_wraps :
    see (step (due 7#8 { ms0 with snakeIdx := 10#4 } uto)) (fun t => (t.out, t.ms.snakeIdx)) =
      some (some 0x1A#8, 0#4) := by decide
theorem test_tick_snake_beyond_the_table :
    fault? (step (due 7#8 { ms0 with snakeIdx := 11#4 } uto)) = some (.raised (.indexOutOfRange .snakeRom 11)) := by
  decide
theorem test_tick_queue_advances :
    see (step (due 8#8 { ms0 with queueIdx := 33#6 } uto)) (fun t => (t.out, t.ms.queueIdx)) =
      some (some 0xA1#8, 34#6) := by decide
theorem test_tick_queue_wraps :
    see (step (due 8#8 { ms0 with queueIdx := 34#6 } uto)) (fun t => (t.out, t.ms.queueIdx)) =
      some (some 0xA2#8, 0#6) := by decide
theorem test_tick_lfsr_seed :
    see (step (due 9#8 ms0 uto)) (fun t => (t.out, t.ms.lfsr)) = some (some 0x1C#8, 28#6) := by decide
theorem test_tick_lfsr_feedback :
    see (step (due 9#8 { ms0 with lfsr := 16#6 } uto)) (fun t => (t.out, t.ms.lfsr)) =
      some (some 0x28#8, 40#6) := by decide
theorem test_tick_illegal_mode :
    fault? (step (due 10#8 ms0 uto)) = some (.raised (.modeOutOfRange 10#8)) := by decide
theorem test_expire_while_masked :
    see (step { uto with script := [0x00#8] }) (fun t => (t.pend, t.ten, t.serviceEnabled)) =
      some (true, false, false) := by decide
theorem test_tick_enable :
    see (step { uto with script := [0xC1#8], pend := true }) (fun t => (t.pend, t.ten, t.serviceEnabled)) =
      some (true, true, true) := by decide
theorem test_tick_disable :
    see (step { uto with script := [0xC0#8], ten := true }) (fun t => (t.pend, t.ten)) = some (false, false) := by
  decide
theorem test_reset_states :
    see (step { uto with
        mode := 7#8, ms := ⟨0x7F#8, 3#4, 4#4, 5#4, 20#6, 45#6⟩, prevA := false, out := some 0x2D#8, script := [0x80#8] })
      (fun t => (t.mode, t.ms, t.prevA, t.prevB, t.out)) =
        some (7#8, ⟨0#8, 0#4, 0#4, 0#4, 0#6, 57#6⟩, false, true, some 0x2D#8) := by decide
/-- A held low, B pressed: only the press of B. -/
theorem test_poll_held_and_pressed :
    see (step { uto with mode := 5#8, prevA := false, ms := { ms0 with acc := 2#8 }, script := [0x40#8] })
      (fun t => (t.mode, t.ms.acc, t.prevA, t.prevB)) = some (4#8, 0#8, false, false) := by decide
/-- A pressed at mode 9: the wrap. -/
theorem test_poll_next_wraps :
    see (step { uto with mode := 9#8, ms := { ms0 with lfsr := 27#6 }, script := [0x42#8] })
      (fun t => (t.mode, t.ms.lfsr, t.prevA, t.prevB)) = some (1#8, 57#6, false, true) := by decide
theorem test_hw_reset :
    see (step { uto with
        mode := 9#8, ms := { ms0 with lfsr := 27#6 }, ten := true, out := some 0x1B#8, script := [0xC2#8] })
      (fun t => (t.mode, t.ms.lfsr, t.pend, t.ten, t.out)) = some (1#8, 57#6, false, false, none) := by decide
theorem test_reserved_word :
    refusal? (step { uto with script := [0x44#8, 0x00#8] }) = some (.reservedWord 0x44#8) ∧
      fault? (step (advance { uto with script := [0x44#8, 0x00#8] })) = some .noStepEnabled := by decide
/-- The split form: the poll starts, MODE is written, then the first field of the reset. -/
theorem test_split_poll :
    (runs 3 { split with ms := { ms0 with acc := 7#8, bcdU := 3#4 }, script := [0x42#8] }).map
      (fun t => (t.mode, t.ms.acc, t.ms.bcdU, t.prevA)) = some (2#8, 0#8, 3#4, true) := by decide
/-- The bus before the first tick shows nothing, and afterwards bit i on line i (R32, R47). -/
theorem test_output_lines : outputLine 0 uto = none ∧
    outputLine 7 { uto with out := some 0x81#8 } = some true ∧
    outputLine 1 { uto with out := some 0x81#8 } = some false := by decide
/-- A word placed in the reset state, whatever its OPEN parameters: the very next step runs it. -/
theorem test_placed_word_from_reset :
    see (step (State.reset.withFetchWord 8 0x01)) (fun t => (t.out, t.ms.acc)) = some (some 0x00#8, 0x01#8) ∧
      see (step (State.reset.withFetchWord 8 0xC1)) (fun t => t.ten) = some true := by decide

/-! ### Witnesses: states and operands that meet the hypotheses of the statements

One theorem per statement with hypotheses, named after it: each conjunct is one clause's hypotheses at concrete values,
at the bounds of its ranges. -/

/-- The block running: ticks enabled, nothing pending, the reference schedule. -/
def quiet (m : Byte) (ms : ModeState) (s : State) : State := { s with mode := m, ms := ms, ten := true }

theorem quiet_block (m : Byte) (ms : ModeState) : (quiet m ms uto).Quiet := ⟨rfl, rfl, rfl, rfl, rfl⟩

/-- A poll of A, in progress: the press, its reset and the levels all to do. -/
def pollOfA : Foreground := { levels := some (false, true), pressA := true, pressB := false, resetLeft := [] }

/-- The last two fields of a reset and then the levels remain. -/
def lateReset : Foreground :=
  { levels := some (false, true), pressA := false, pressB := false, resetLeft := [.queueIdx, .lfsr] }

/-- The invariant of a block in legal mode `m` with a legal ModeState. -/
theorem inv_block (m : Byte) (ms : ModeState) (hm : 1 ≤ m.toNat ∧ m.toNat ≤ 9) (hl : ms.Legal) :
    (quiet m ms uto).Inv :=
  ⟨hm, hl, rfl, fun op h => by cases h⟩

theorem legal_ms0 : ms0.Legal := ⟨by decide, by decide, by decide, by decide, by decide⟩

/-- The largest legal values of every field. -/
theorem legal_top : ModeState.Legal ⟨0xFF#8, 9#4, 9#4, 10#4, 34#6, 54#6⟩ :=
  ⟨by decide, by decide, by decide, by decide, by decide⟩

/-- A split block in the middle of a reaction meets the invariant. -/
theorem inv_split (op : Foreground) (h : op.Wf) : ({ quiet 6#8 ms0 split with fore := some op } : State).Inv :=
  ⟨(by decide : 1 ≤ (6#8 : Byte).toNat ∧ (6#8 : Byte).toNat ≤ 9), legal_ms0, rfl,
    fun _ e => by cases e; exact ⟨h, rfl⟩⟩

theorem wf_pollOfA : pollOfA.Wf := by unfold Foreground.Wf; decide
theorem wf_lateReset : lateReset.Wf := by unfold Foreground.Wf; decide

theorem witness_EncodingRoundTrips :
    (Instr.poll true false).wfIn .event = true ∧ (Instr.tickLfsr).wfIn .mode = true ∧
      decodeEvent 0xC2#8 = .ok .hwReset ∧ decodeMode 0x09#8 = .ok .tickLfsr := by decide

/-- Each range of reserved words at both ends. -/
theorem witness_ReservedWordsAreRefused :
    (∀ w ∈ [0x01#8, 0x3F#8, 0x44#8, 0x7F#8, 0x81#8, 0xBF#8, 0xC3#8, 0xFF#8], decodeEvent w = .error (.reserved w)) ∧
      ∃ s : State, s.stopped = false ∧ s.turns = [.environment] ∧ s.script = [0x44#8] :=
  ⟨by decide, { uto with turns := [.environment], script := [0x44#8] }, by decide, rfl, rfl⟩

theorem witness_AssembledScriptDecodesToItsEvents :
    ∀ l ∈ [ScriptLine.boot, .event (.poll true false), .tick, .ticks 1, .idle, .pressA, .pressB, .pressAB],
      l.wf = true := by decide

/-- First clause: an event that does not wait, the foreground busy; one that waits, the foreground free. Second clause:
no tick pending; ticks disabled. -/
theorem witness_StepRunsTheDeliveredEvent :
    (∃ s : State, s.stopped = false ∧ s.script = [0xC2#8] ∧ decodeEvent 0xC2#8 = .ok .hwReset ∧
      s.turns = [.environment] ∧ isForegroundEvent .hwReset = false ∧ s.fore = some pollOfA) ∧
    (∃ s : State, s.stopped = false ∧ s.script = [0x43#8] ∧ decodeEvent 0x43#8 = .ok (.poll true true) ∧
      s.turns = [.environment] ∧ s.fore = none) ∧
    (∃ s : State, s.stopped = false ∧ s.script = [0x00#8] ∧ s.turns = [] ∧ s.fore = none ∧ s.pend = false) ∧
    ∃ s : State, s.stopped = false ∧ s.script = [0x00#8] ∧ s.turns = [] ∧ s.fore = none ∧ s.ten = false :=
  ⟨⟨{ split with script := [0xC2#8], turns := [.environment], fore := some pollOfA }, by decide, rfl, rfl, rfl, rfl, rfl⟩,
    ⟨{ uto with script := [0x43#8], turns := [.environment] }, by decide, rfl, rfl, rfl, rfl⟩,
    ⟨{ uto with script := [0x00#8], ten := true }, by decide, rfl, rfl, rfl, rfl⟩,
    ⟨{ uto with script := [0x00#8], pend := true }, by decide, rfl, rfl, rfl, rfl⟩⟩

theorem witness_StepRunsTheTickThatModeSelects :
    (∃ s : State, s.stopped = false ∧ s.pend = true ∧ s.ten = true ∧ decodeMode s.mode = .ok .tickLfsr ∧
      s.turns = [.tick] ∧ s.fore = some pollOfA) ∧
    ∃ s : State, s.stopped = false ∧ s.pend = true ∧ s.ten = true ∧ decodeMode s.mode = .ok .tickInc ∧
      s.turns = [] ∧ s.fore = none :=
  ⟨⟨{ due 9#8 ms0 split with turns := [.tick], fore := some pollOfA }, by decide, rfl, rfl, rfl, rfl, rfl⟩,
    ⟨due 1#8 ms0 uto, by decide, rfl, rfl, rfl, rfl, rfl⟩⟩

theorem witness_PlacedWordRunsNext :
    decodeMode 0x01#8 = .ok .tickInc ∧ decodeMode 0x09#8 = .ok .tickLfsr ∧ decodeEvent 0x00#8 = .ok .expire ∧
      decodeEvent 0xC2#8 = .ok .hwReset := by decide

theorem witness_TickIsTakenExactlyWhenPendingAndEnabled :
    (∃ s : State, s.turns = [.tick] ∧ s.pend = true ∧ s.ten = true ∧ s.stopped = false) ∧
    (∃ s : State, s.turns = [.tick] ∧ ¬(s.pend = true ∧ s.ten = true) ∧ s.stopped = false) ∧
    ∃ s : State, s.turns = [.tick] ∧ s.stopped = true :=
  ⟨⟨{ due 1#8 ms0 uto with turns := [.tick] }, rfl, rfl, rfl, by decide⟩,
    ⟨{ uto with turns := [.tick] }, rfl, by decide, by decide⟩,
    ⟨{ uto with turns := [.tick], fault := ⟨[], true⟩ }, rfl, by decide⟩⟩

/-- Each foreground event, and each event that does not wait, with the foreground busy. -/
theorem witness_ForegroundEventsWaitForTheForeground :
    ∀ w ∈ [0x80#8, 0xC0#8, 0xC1#8, 0x42#8, 0x00#8, 0xC2#8], ∃ (s : State) (i : Instr), s.stopped = false ∧ s.fore = some pollOfA ∧
      s.turns = [.environment] ∧ s.script = [w] ∧ decodeEvent w = .ok i ∧
      (i = .resetStates ∨ i = .tickEnable ∨ i = .tickDisable ∨ (∃ a b, i = .poll a b) ∨ i = .expire ∨ i = .hwReset) := by
  intro w hw
  simp only [List.mem_cons, List.not_mem_nil, or_false] at hw
  obtain rfl | rfl | rfl | rfl | rfl | rfl := hw <;> 
    exact ⟨{ split with fore := some pollOfA, turns := [.environment], script := [_] }, _, rfl, rfl, rfl, rfl, rfl, by simp⟩

theorem witness_FaultRecordIsStickyAndStopsTheMachine :
    (∃ s : State, s.stopped = true ∧ s.fault.refused = true ∧ .modeOutOfRange 0#8 ∈ s.fault.reasons) ∧
    (∃ s t : State, step s = .next t) ∧ ∃ (s : State) (r : FaultReason), step s = .fault (.raised r) :=
  ⟨⟨{ uto with fault := ⟨[.modeOutOfRange 0#8], true⟩ }, by decide, rfl, by decide⟩,
    ⟨uto, uto, rfl⟩, ⟨due 0#8 ms0 uto, .modeOutOfRange 0#8, rfl⟩⟩

/-- MODE at 0, 10 and 255. -/
theorem witness_TickOnIllegalModeFaults :
    ∀ m ∈ [0#8, 10#8, 255#8], ∃ s : State, s.mode = m ∧ (s.mode.toNat = 0 ∨ 10 ≤ s.mode.toNat) ∧
      s.stopped = false ∧ s.turns = [.tick] ∧ s.pend = true ∧ s.ten = true := by
  intro m hm
  have h : ∀ m ∈ [0#8, 10#8, 255#8], m.toNat = 0 ∨ 10 ≤ m.toNat := by decide
  exact ⟨{ due m ms0 uto with turns := [.tick] }, rfl, h m hm, rfl, rfl, rfl, rfl⟩

theorem witness_TickGrayUpOutputsTheOrderedCode :
    uto.params.grayOrder = .updateThenOutput ∧ otu.params.grayOrder = .outputThenUpdate := ⟨rfl, rfl⟩

theorem witness_TickGrayDownOutputsTheOrderedCode :
    uto.params.grayOrder = .updateThenOutput ∧ otu.params.grayOrder = .outputThenUpdate := ⟨rfl, rfl⟩

/-- From ACC = 0xFF, the wrap, in both modes. -/
theorem witness_SuccessiveGrayOutputsDifferInOneBit :
    ∃ (i j : Instr) (s : State), i = .tickGrayUp ∧ j = .tickGrayDown ∧ s.ms.acc = 0xFF#8 :=
  ⟨_, _, due 3#8 { ms0 with acc := 0xFF#8 } uto, rfl, rfl, rfl⟩

/-- Units below 9, at 9, and (reading the register's whole range) above it. -/
theorem witness_TickBcdUpAdvancesTheDigits :
    (∃ s : State, s.ms.bcdU.toNat + 1 ≤ 9 ∧ s.ms.bcdU.toNat = 8) ∧
      ∀ u ∈ [9#4, 15#4], ∃ s : State, s.ms.bcdU = u ∧ s.ms.bcdU.toNat + 1 > 9 :=
  ⟨⟨due 5#8 { ms0 with bcdU := 8#4 } uto, by decide, rfl⟩,
    fun u hu => ⟨due 5#8 { ms0 with bcdU := u } uto, rfl,
      (by decide : ∀ u ∈ [9#4, 15#4], u.toNat + 1 > 9) u hu⟩⟩

theorem witness_TickBcdDownLowersTheDigits :
    (∃ s : State, s.ms.bcdU.toNat = 0 ∧ s.ms.bcdT.toNat = 0) ∧ ∃ s : State, s.ms.bcdU.toNat ≠ 0 ∧ s.ms.bcdU.toNat = 1 :=
  ⟨⟨due 6#8 ms0 uto, rfl, rfl⟩, ⟨due 6#8 { ms0 with bcdU := 1#4 } uto, by decide, rfl⟩⟩

/-- Both digits at 9 and at 0, both modes. -/
theorem witness_BcdTicksKeepDecimalDigits :
    (∃ s : State, s.ms.bcdU.toNat = 9 ∧ s.ms.bcdT.toNat = 9) ∧ (∃ s : State, s.ms.bcdU.toNat = 0 ∧ s.ms.bcdT.toNat = 0) ∧
      ∃ i j : Instr, i = .tickBcdUp ∧ j = .tickBcdDown :=
  ⟨⟨due 5#8 { ms0 with bcdU := 9#4, bcdT := 9#4 } uto, rfl, rfl⟩, ⟨due 6#8 ms0 uto, rfl, rfl⟩, _, _, rfl, rfl⟩

theorem witness_BcdUpAndDownAreInverse :
    (∃ i j : Instr, i = .tickBcdUp ∧ j = .tickBcdDown) ∧ (∃ i j : Instr, i = .tickBcdDown ∧ j = .tickBcdUp) ∧
      ∃ s : State, s.ms.bcdU.toNat = 9 ∧ s.ms.bcdT.toNat = 9 :=
  ⟨⟨_, _, rfl, rfl⟩, ⟨_, _, rfl, rfl⟩, due 5#8 { ms0 with bcdU := 9#4, bcdT := 9#4 } uto, rfl, rfl⟩

/-- The last entry of each table, and the first index beyond. -/
theorem witness_TableReadsAreBoundsChecked : 10 < 11 ∧ 11 ≤ 11 ∧ 34 < 35 ∧ 35 ≤ 35 := by decide

theorem witness_TickSnakePlaysTheTable :
    (∃ s : State, s.ms.snakeIdx.toNat = 10 ∧ s.ms.snakeIdx.toNat ≤ 10) ∧
      ∃ s : State, s.ms.snakeIdx.toNat = 11 ∧ 10 < s.ms.snakeIdx.toNat :=
  ⟨⟨due 7#8 { ms0 with snakeIdx := 10#4 } uto, rfl, by decide⟩,
    ⟨due 7#8 { ms0 with snakeIdx := 11#4 } uto, rfl, by decide⟩⟩

theorem witness_TickQueuePlaysTheTable :
    (∃ s : State, s.ms.queueIdx.toNat = 34 ∧ s.ms.queueIdx.toNat ≤ 34) ∧
      ∃ s : State, s.ms.queueIdx.toNat = 35 ∧ 34 < s.ms.queueIdx.toNat :=
  ⟨⟨due 8#8 { ms0 with queueIdx := 34#6 } uto, rfl, by decide⟩,
    ⟨due 8#8 { ms0 with queueIdx := 35#6 } uto, rfl, by decide⟩⟩

/-- A value with two values before it; 15 and 16, the ends of the two basins; a value on the cycle. -/
theorem witness_LfsrStateGraph :
    lfsrNext 57#6 = 28#6 ∧ (15#6 : Word6).toNat ≤ 15 ∧ 16 ≤ (16#6 : Word6).toNat ∧ lfsrNext^[3] 27#6 = 27#6 ∧
      lfsrNext^[1] 0#6 = 0#6 := by decide

theorem witness_AccumulatorModesCloseAfter256Ticks :
    (∃ s : State, s.Quiet ∧ s.mode.toNat = 1) ∧ ∃ s : State, s.Quiet ∧ s.mode.toNat = 4 ∧ s.ms.acc.toNat = 255 :=
  ⟨⟨quiet 1#8 ms0 uto, quiet_block _ _, rfl⟩, ⟨quiet 4#8 { ms0 with acc := 255#8 } uto, quiet_block _ _, rfl, rfl⟩⟩

theorem witness_BcdModesCountModulo100 :
    (∃ s : State, s.Quiet ∧ s.mode.toNat = 5 ∧ s.ms.bcdU.toNat = 9 ∧ s.ms.bcdT.toNat = 9) ∧
      ∃ s : State, s.Quiet ∧ s.mode.toNat = 6 ∧ s.ms.bcdU.toNat = 0 ∧ s.ms.bcdT.toNat = 0 :=
  ⟨⟨quiet 5#8 { ms0 with bcdU := 9#4, bcdT := 9#4 } uto, quiet_block _ _, rfl, rfl, rfl⟩,
    ⟨quiet 6#8 ms0 uto, quiet_block _ _, rfl, rfl, rfl⟩⟩

theorem witness_TableModesRepeatTheirTable :
    (∃ s : State, s.Quiet ∧ s.mode.toNat = 7 ∧ s.ms.snakeIdx.toNat = 0) ∧
      ∃ s : State, s.Quiet ∧ s.mode.toNat = 8 ∧ s.ms.queueIdx.toNat = 0 :=
  ⟨⟨quiet 7#8 ms0 uto, quiet_block _ _, rfl, rfl⟩, ⟨quiet 8#8 ms0 uto, quiet_block _ _, rfl, rfl⟩⟩

theorem witness_LfsrOrbitFromTheSeed : ∃ s : State, s.Quiet ∧ s.mode.toNat = 9 ∧ s.ms.lfsr.toNat = 57 :=
  ⟨quiet 9#8 ms0 uto, quiet_block _ _, rfl, rfl⟩

theorem witness_MaskedExpiriesGiveOneTick :
    ∃ s : State, s.Inv ∧ s.fault.refused = false ∧ s.fore = none ∧ s.turns = [] ∧ s.ten = false :=
  ⟨uto, ⟨by decide, legal_ms0, rfl, fun op h => by cases h⟩, rfl, rfl, rfl, rfl⟩

theorem witness_ResetStatesWritesTheSixFields : uto.params.atomicModeChange = true := rfl
theorem witness_ResetStatesIsIdempotent : uto.params.atomicModeChange = true := rfl
theorem witness_SplitResetStatesStartsTheSixSteps : split.params.atomicModeChange = false := rfl

/-- A alone at modes 9 and 1, B alone at modes 1 and 9, both, none, none with an illegal MODE, a press with one. -/
theorem witness_PollSelectsTheModeInOneStep :
    ∀ m ∈ [1#8, 9#8, 0#8, 10#8], ∃ s : State, s.params.atomicModeChange = true ∧ s.mode = m ∧ s.prevA = true ∧
      s.prevB = true :=
  fun m _ => ⟨{ uto with mode := m }, rfl, rfl, rfl, rfl⟩

/-- A pressed alone, B held low. -/
theorem witness_SplitPollHoldsItsLevelsAndPresses :
    ∃ s : State, s.params.atomicModeChange = false ∧ s.prevA = true ∧ s.prevB = false :=
  ⟨{ split with prevB := false }, rfl, rfl, rfl⟩

theorem witness_DoublePressKeepsModeAndResets :
    ∀ m ∈ [1#8, 9#8], ∃ s : State, s.params.atomicModeChange = true ∧ s.prevA = true ∧ s.prevB = true ∧ s.mode = m ∧
      1 ≤ s.mode.toNat ∧ s.mode.toNat ≤ 9 := by
  intro m hm
  have h : ∀ m ∈ [1#8, 9#8], 1 ≤ m.toNat ∧ m.toNat ≤ 9 := by decide
  exact ⟨{ uto with mode := m }, rfl, rfl, rfl, rfl, h m hm⟩

theorem witness_NinePressesReturnToTheMode :
    ∃ s : State, s.Quiet ∧ s.params.atomicModeChange = true ∧ s.prevA = true ∧ s.prevB = true ∧ s.mode.toNat = 9 :=
  ⟨quiet 9#8 ms0 uto, quiet_block _ _, rfl, rfl, rfl, rfl⟩

theorem witness_HeldButtonGivesNoFurtherPress :
    (∃ s : State, s.Quiet ∧ s.params.atomicModeChange = true ∧ s.prevA = false) ∧
      ∃ s : State, s.Quiet ∧ s.params.atomicModeChange = true ∧ s.prevB = false :=
  ⟨⟨{ quiet 1#8 ms0 uto with prevA := false }, ⟨by decide, rfl, rfl, rfl, rfl⟩, rfl, rfl⟩,
    ⟨{ quiet 1#8 ms0 uto with prevB := false }, ⟨by decide, rfl, rfl, rfl, rfl⟩, rfl, rfl⟩⟩

/-- Every mode the poll can change into: from each mode, a press of A. -/
theorem witness_FirstOutputAfterAModeChange :
    ∀ m ∈ [1#8, 2#8, 3#8, 4#8, 5#8, 6#8, 7#8, 8#8, 9#8], ∃ s t : State, s.params.atomicModeChange = true ∧ s.mode = m ∧
      (1 ≤ s.mode.toNat ∧ s.mode.toNat ≤ 9) ∧ s.edgeA false = true ∧ exec (.poll false true) s = .next t ∧
        t.mode = nextMode m := by
  intro m hm
  simp only [List.mem_cons, List.not_mem_nil, or_false] at hm
  obtain rfl | rfl | rfl | rfl | rfl | rfl | rfl | rfl | rfl := hm <;>
    exact ⟨{ uto with mode := _ }, _, rfl, rfl, by decide, rfl, rfl, rfl⟩

/-- The split block with `op` in progress, in mode `m`, and one turn of the foreground for the field `f`. -/
def reacting (m : Byte) (op : Foreground) (f : ModeField) : State :=
  { split with mode := m, fore := some op, turns := [.foreground f] }

/-- A field to reset, the last one, one already reset; the presses of A and of B at the ends of MODE's range; an illegal
MODE; the levels. -/
theorem witness_SplitReactionTakesItsStepsInOrder :
    (∀ m ∈ [0#8, 1#8, 9#8, 10#8], ∀ op f, ∃ s : State, s.stopped = false ∧ s.mode = m ∧ s.fore = some op ∧
      s.turns = [.foreground f]) ∧
    lateReset.resetLeft.Nodup ∧ ModeField.lfsr ∈ lateReset.resetLeft ∧ ModeField.acc ∉ lateReset.resetLeft ∧
    lateReset.resetLeft ≠ [] ∧
    (∃ op : Foreground, op.resetLeft = [.acc] ∧ op.levels = none ∧ op.pressA = false ∧ op.pressB = false) ∧
    (pollOfA.resetLeft = [] ∧ pollOfA.pressA = true) ∧
    (∃ op : Foreground, op.resetLeft = [] ∧ op.pressA = false ∧ op.pressB = true) ∧
    ∃ op : Foreground, op.resetLeft = [] ∧ op.pressA = false ∧ op.pressB = false ∧ op.levels = some (false, true) :=
  ⟨fun m _ op f => ⟨reacting m op f, rfl, rfl, rfl, rfl⟩, by decide, by decide, by decide, by decide,
    ⟨{ startupOperation with resetLeft := [.acc] }, rfl, rfl, rfl, rfl⟩, ⟨rfl, rfl⟩,
    ⟨{ pollOfA with pressA := false, pressB := true }, rfl, rfl, rfl⟩,
    ⟨{ pollOfA with pressA := false }, rfl, rfl, rfl, rfl⟩⟩

/-- A poll that shows no press ends after one foreground turn; and the reference schedule. -/
theorem witness_UninterruptedSplitPollEqualsOneStepPoll :
    (∃ s : State, s.stopped = false ∧ s.fore = none ∧ s.params.atomicModeChange = false ∧ s.mode.toNat = 9 ∧
      s.turns = [.foreground .acc] ∧
      ∃ t, Sys2Proof.core.run 1 { s with fore := some (pollOperation true true s) } = .next t ∧ t.fore = none) ∧
    ∃ s : State, s.stopped = false ∧ s.fore = none ∧ s.params.atomicModeChange = false ∧ s.mode.toNat = 1 ∧
      s.turns = [] ∧ s.script = [] ∧ s.pend = false :=
  ⟨⟨{ split with mode := 9#8, turns := [.foreground .acc] }, by decide, rfl, rfl, rfl, rfl, _, rfl, rfl⟩,
    ⟨split, by decide, rfl, rfl, rfl, rfl, rfl, rfl⟩⟩

theorem witness_RaceLeavesBcdDigitsThatRunOn :
    ∃ s : State, s.stopped = false ∧ s.mode = 6#8 ∧ s.ms.bcdU = 0#4 ∧ s.ms.bcdT = 9#4 ∧ s.pend = true ∧ s.ten = true ∧
      s.fore = some { levels := some (false, true), pressA := false, pressB := false,
                      resetLeft := [.bcdT, .snakeIdx, .queueIdx, .lfsr] } ∧
      s.turns = [.tick] ∧ s.script = [0x00#8] :=
  ⟨{ due 6#8 { ms0 with bcdT := 9#4 } split with
      fore := some { levels := some (false, true), pressA := false, pressB := false,
                     resetLeft := [.bcdT, .snakeIdx, .queueIdx, .lfsr] }
      turns := [.tick], script := [0x00#8] }, by decide, rfl, rfl, rfl, rfl, rfl, rfl, rfl, rfl⟩

/-- Mode 7 with two fields still to reset, a tick due in the middle. -/
theorem witness_SingleFieldModesRecoverFromTheRace :
    ∃ s t : State, s.Inv ∧ s.fore = some lateReset ∧ lateReset.pressA = false ∧ lateReset.pressB = false ∧
      singleField s.mode = some .snakeIdx ∧ ModeField.snakeIdx ∉ lateReset.resetLeft ∧ (∀ w ∈ s.script, w = 0x00#8) ∧
      Sys2Proof.core.run 1 s = .next t :=
  ⟨{ due 7#8 ms0 split with fore := some lateReset, turns := [.tick], script := [0x00#8] }, _,
    ⟨by decide, legal_ms0, rfl, fun _ e => by cases e; exact ⟨wf_lateReset, rfl⟩⟩, rfl, rfl, rfl, rfl, by decide,
    by decide, rfl⟩

theorem witness_HwResetWritesTheResetTable :
    ∃ s : State, s.stopped = false ∧ s.turns = [.environment] ∧ s.script = [0xC2#8] ∧ s.fore = some pollOfA :=
  ⟨{ split with turns := [.environment], script := [0xC2#8], fore := some pollOfA }, by decide, rfl, rfl, rfl⟩

theorem witness_InitialStateIsTheStateAfterHwReset :
    ∃ s : State, s.stopped = false ∧ s.script = [] ∧ s.turns = [] ∧ s.mode = 9#8 :=
  ⟨{ uto with mode := 9#8 }, by decide, rfl, rfl, rfl⟩

/-- A step that sets PEND, one that clears it, one that writes TEN. -/
theorem witness_PendAndTenHaveTheirWriters :
    (∃ s t : State, step s = .next t ∧ s.pend = false ∧ t.pend = true) ∧
    (∃ s t : State, step s = .next t ∧ s.pend = true ∧ t.pend = false ∧ (nextAction s).1 = .service) ∧
    ∃ s t : State, step s = .next t ∧ t.ten ≠ s.ten :=
  ⟨⟨{ uto with script := [0x00#8] }, _, rfl, rfl, rfl⟩, ⟨due 1#8 ms0 uto, _, rfl, rfl, rfl, rfl⟩,
    ⟨{ uto with script := [0xC1#8] }, _, rfl, by decide⟩⟩

/-- A step that writes OUT, one that empties it, one that writes MODE and a previous level. -/
theorem witness_ModeLevelsAndOutHaveTheirWriters :
    (∃ s t : State, step s = .next t ∧ t.out ≠ s.out) ∧
    (∃ s t : State, step s = .next t ∧ t.out ≠ s.out ∧ t.out = none) ∧
    ∃ s t : State, step s = .next t ∧ t.mode ≠ s.mode ∧ t.prevA ≠ s.prevA :=
  ⟨⟨due 1#8 ms0 uto, _, rfl, by decide⟩,
    ⟨{ uto with out := some 0#8, script := [0xC2#8] }, _, rfl, by decide, rfl⟩,
    ⟨{ uto with script := [0x42#8] }, _, rfl, by decide, by decide⟩⟩

theorem witness_NoStepWritesTablesOrParameters : ∃ s t : State, step s = .next t ∧ t.out = some 0x10#8 :=
  ⟨due 7#8 ms0 uto, _, rfl, by decide⟩

/-- A run in which a tick is taken. -/
theorem witness_OutShowsTheLastTick :
    ∃ s t : State, 0xC2#8 ∉ s.script ∧ Sys2Proof.core.run 2 s = .next t ∧ ticksTaken 2 s = 1 :=
  ⟨{ uto with ten := true, script := [0x00#8] }, _, by decide, rfl, rfl⟩

/-- A state of each form, one of them with the largest legal values, from which a step is taken. -/
theorem witness_EveryStepKeepsTheInvariant :
    (∃ s t : State, s.Inv ∧ s.ms.queueIdx = 34#6 ∧ step s = .next t) ∧
      ∃ s t : State, s.Inv ∧ s.fore = some pollOfA ∧ step s = .next t :=
  ⟨⟨quiet 8#8 ⟨0xFF#8, 9#4, 9#4, 10#4, 34#6, 54#6⟩ uto, _, inv_block _ _ (by decide) legal_top, rfl, rfl⟩,
    ⟨{ quiet 6#8 ms0 split with fore := some pollOfA }, _, inv_split _ wf_pollOfA, rfl, rfl⟩⟩

theorem witness_NoFaultIsRaisedFromLegalStates :
    (∃ s : State, s.Inv ∧ s.mode = 8#8 ∧ s.ms.queueIdx = 34#6) ∧ ∃ s : State, s.Inv ∧ s.fore = some lateReset :=
  ⟨⟨quiet 8#8 ⟨0xFF#8, 9#4, 9#4, 10#4, 34#6, 54#6⟩ uto, inv_block _ _ (by decide) legal_top, rfl, rfl⟩,
    ⟨{ quiet 6#8 ms0 split with fore := some lateReset }, inv_split _ wf_lateReset, rfl⟩⟩

theorem witness_RunsNeverStop :
    ∃ s : State, s.Inv ∧ s.fault.refused = false ∧ s.script = [0x43#8, 0x00#8] ∧
      ∀ w ∈ s.script, ∃ i, decodeEvent w = .ok i := by
  refine ⟨{ quiet 9#8 ms0 uto with script := [0x43#8, 0x00#8] },
    ⟨by decide, legal_ms0, rfl, fun op h => by cases h⟩, rfl, rfl, ?_⟩
  intro w hw
  simp only [List.mem_cons, List.not_mem_nil, or_false] at hw
  obtain rfl | rfl := hw <;> exact ⟨_, rfl⟩

theorem witness_ReferenceScheduleRunsAScript :
    ∃ (s t : State), s.stopped = false ∧ s.fore = none ∧ s.turns = [] ∧ s.script = [] ∧
      s.params.atomicModeChange = true ∧ s.pend = false ∧
      (∀ i ∈ [Instr.tickEnable, .expire, .poll false true], i.wfIn .event = true) ∧
      referenceRun [.tickEnable, .expire, .poll false true] s = .next t :=
  ⟨uto, _, by decide, rfl, rfl, rfl, rfl, rfl, by decide, rfl⟩

/-- The tick due, the foreground free; and with a whole poll still to do. -/
theorem witness_EnabledTickIsTakenSoon :
    (∃ s : State, s.Inv ∧ s.fault.refused = false ∧ s.turns = [] ∧ s.pend = true ∧ s.ten = true ∧ s.fore = none) ∧
      ∃ s : State, s.Inv ∧ s.fault.refused = false ∧ s.turns = [] ∧ s.pend = true ∧ s.ten = true ∧
        s.fore = some pollOfA :=
  ⟨⟨due 1#8 ms0 uto, ⟨by decide, legal_ms0, rfl, fun op h => by cases h⟩, rfl, rfl, rfl, rfl, rfl⟩,
    ⟨{ due 6#8 ms0 split with fore := some pollOfA },
      ⟨by decide, legal_ms0, rfl, fun _ e => by cases e; exact ⟨wf_pollOfA, rfl⟩⟩, rfl, rfl, rfl, rfl, rfl⟩⟩

end Sys2Proof.Tests
end

section
/-! Single steps on a turn that the list of turns gives (00_scope.md R8): the environment's delivery and the tick's
SERVICE; then what placing an opcode-table word makes of a state, and the statements on the step's delivery. -/

namespace Sys2Proof.Machine

/-- R200: an event waits only if it is a foreground event and the foreground is busy. -/
theorem eventEnabled_iff (i : Instr) (s : State) :
    eventEnabled i s = true ↔ isForegroundEvent i = false ∨ s.fore = none := by
  simp [eventEnabled]

/-- A tick that is not pending, or not enabled by TEN, is not to be taken (R80). -/
theorem serviceEnabled_eq_false {s : State} (h : s.pend = false ∨ s.ten = false) : s.serviceEnabled = false := by
  obtain h | h := h <;> simp [State.serviceEnabled, h]

@[simp] theorem FaultRecord.nonEmpty_empty : FaultRecord.empty.nonEmpty = false := rfl

/-- With FAULT empty a step is enabled (R37). -/
theorem stopped_of_fault_empty {s : State} (h : s.fault = FaultRecord.empty) : s.stopped = false := by
  simp [State.stopped, h]

/-- On its turn the environment delivers its next word, if that is an enabled event. -/
theorem turnAction_environment {s : State} {w : Byte} {ws : List Byte} {i : Instr} (hw : s.script = w :: ws)
    (hi : decodeEvent w = .ok i) (he : eventEnabled i s = true) :
    turnAction .environment s = (.event i, { s with script := ws }) := by
  simp [turnAction, environmentTurn, hw, hi, he]

/-- The environment's turn, its next word an enabled event: the event runs in the state without the word and the
turn. -/
theorem step_environment_turn {s : State} {w : Byte} {ws : List Byte} {ts : List Turn} {i : Instr}
    (h0 : s.stopped = false) (ht : s.turns = .environment :: ts) (hw : s.script = w :: ws)
    (hi : decodeEvent w = .ok i) (he : eventEnabled i s = true) :
    step s = exec i { s with script := ws, turns := ts } := by
  have ha : turnAction .environment { s with turns := ts } = (.event i, { s with script := ws, turns := ts }) :=
    turnAction_environment hw hi he
  rw [step_of_not_stopped h0, nextAction_of_turn ht, ha, perform]

/-- SERVICE runs the tick operation that MODE selects (R81). -/
theorem service_of_decodeMode {s : State} {i : Instr} (h : decodeMode s.mode = .ok i) : service s = exec i s := by
  simp [service, h]

/-- On its turn the tick agent takes SERVICE, if the tick is pending and enabled (R80). -/
theorem turnAction_tick {s : State} (h0 : s.stopped = false) (hp : s.pend = true) (hten : s.ten = true) :
    turnAction .tick s = (.service, s) := by
  simp [turnAction, State.serviceEnabled, h0, hp, hten]

/-- The tick's turn, a tick pending and enabled: SERVICE runs in the state without the turn. -/
theorem step_tick_turn {s : State} {ts : List Turn} (h0 : s.stopped = false) (ht : s.turns = .tick :: ts)
    (hp : s.pend = true) (hten : s.ten = true) : step s = service { s with turns := ts } := by
  have ha : turnAction .tick { s with turns := ts } = (.service, { s with turns := ts }) :=
    turnAction_tick h0 hp hten
  rw [step_of_not_stopped h0, nextAction_of_turn ht, ha, perform]

/-- A byte, read as an opcode-table word of 8 bits, is itself. -/
@[simp] theorem tableByte_toNat (w : Byte) : tableByte 8 w.toNat = w := by
  rw [tableByte, Nat.mod_eq_of_lt w.isLt, BitVec.ofNat_toNat, BitVec.setWidth_eq]

/-- A word of 8 bits is placed as it is. -/
theorem withFetchWord_toNat (s : State) (w : Byte) : s.withFetchWord 8 w.toNat = placeWord w s := by
  simp [State.withFetchWord]

/-- Placing a MODE value: it is in MODE, with its tick pending, enabled and next. -/
theorem placeWord_of_decodeMode {w : Byte} {i : Instr} (h : decodeMode w = .ok i) (s : State) :
    placeWord w s =
      { s with fault := FaultRecord.empty, mode := w, pend := true, ten := true, turns := .tick :: s.turns } := by
  simp only [placeWord, h]

/-- Placing an event word: it is first in the script and its turn is next, with the foreground free if it needs it. -/
theorem placeWord_of_decodeEvent {w : Byte} {i : Instr} (h : decodeEvent w = .ok i) (s : State) :
    placeWord w s =
      { s with
        fault := FaultRecord.empty, fore := if isForegroundEvent i then none else s.fore,
        script := w :: s.script, turns := .environment :: s.turns } := by
  obtain ⟨e, hm⟩ := (decode_disjoint w).resolve_left (by simp [h])
  simp only [placeWord, hm, h]

/-- Freeing the foreground where event `i` needs it enables `i`. -/
theorem eventEnabled_of_fore {i : Instr} {s : State} {f : Option Foreground}
    (h : s.fore = if isForegroundEvent i then none else f) : eventEnabled i s = true := by
  rw [eventEnabled_iff]
  cases hi : isForegroundEvent i with
  | false => exact .inl rfl
  | true => exact .inr (by simpa [hi] using h)

/-- Settles O6: on the environment's turn by `step_environment_turn`, under the reference schedule by
`step_deliver`. -/
theorem stepRunsTheDeliveredEvent : Obligations.StepRunsTheDeliveredEvent := by
  intro s w ws i h0 hw hi
  constructor
  · intro ts ht he
    exact step_environment_turn h0 ht hw hi ((eventEnabled_iff i s).2 he)
  · intro ht hf hs
    exact (step_deliver h0 ht hf (serviceEnabled_eq_false hs) hw hi).1

/-- Settles O8: the placed word meets the premises of the tick's turn, or of the environment's, and the step consumes
exactly the word and the turn that were put in. -/
theorem placedWordRunsNext : Obligations.PlacedWordRunsNext := by
  intro s w
  rw [withFetchWord_toNat]
  constructor
  · intro i hi
    rw [placeWord_of_decodeMode hi, step_tick_turn (stopped_of_fault_empty rfl) rfl rfl rfl]
    exact service_of_decodeMode hi
  · intro i hi
    rw [placeWord_of_decodeEvent hi]
    exact step_environment_turn (stopped_of_fault_empty rfl) rfl rfl hi (eventEnabled_of_fore rfl)

end Sys2Proof.Machine
end

section
/-! What each agent's action does from a state that meets the invariant of R38, and which registers a step writes
(10_state.md R21, R29, R32, R33, R37); then the statements on the state. -/

namespace Sys2Proof.Machine

/-! ### The poll and the events -/

/-- A one-step poll writes MODE, ModeState and the previous levels, and no other field; a legal MODE becomes a legal
MODE, and ModeState stays or is reset (R190, R193-R196). -/
theorem pollReaction_writes (a b : Bool) (s : State) :
    ∃ m ms, pollReaction a b s = { s with mode := m, ms := ms, prevA := a, prevB := b } ∧
      (legalMode s.mode = true → legalMode m = true) ∧ (ms = s.ms ∨ ms = ModeState.initial) := by
  simp only [pollReaction]
  cases s.edgeA a <;> cases s.edgeB b
  · exact ⟨s.mode, s.ms, rfl, id, .inl rfl⟩
  · exact ⟨prevMode s.mode, ModeState.initial, rfl, legalMode_prevMode, .inr rfl⟩
  · exact ⟨nextMode s.mode, ModeState.initial, rfl, legalMode_nextMode, .inr rfl⟩
  · exact ⟨prevMode (nextMode s.mode), ModeState.initial, rfl, fun h => legalMode_prevMode (legalMode_nextMode h),
      .inr rfl⟩

/-- A poll that completes is the whole reaction, or the start of the split one. -/
theorem execPoll_next {a b : Bool} {s t : State} (h : execPoll a b s = .next t) :
    t = if s.params.atomicModeChange then pollReaction a b s else { s with fore := some (pollOperation a b s) } := by
  unfold execPoll at h
  split at h
  · simp at h
  · exact (Host.Outcome.next.inj h).symm

/-- From a legal MODE a poll completes: only MODE_NEXT and MODE_PREV can fault, and they check MODE (R193, R194). -/
theorem execPoll_of_legalMode {s : State} (hm : legalMode s.mode = true) (a b : Bool) :
    execPoll a b s = .next
      (if s.params.atomicModeChange then pollReaction a b s else { s with fore := some (pollOperation a b s) }) := by
  simp [execPoll, pollFaults, hm]

/-- An event writes OUT only if it is `HWRESET`, which empties it (R32, R260). -/
theorem exec_event_out {i : Instr} {s t : State} (hi : i.format = .event) (h : exec i s = .next t) :
    t.out = s.out ∨ (i = .hwReset ∧ t.out = none) := by
  cases i <;> simp only [Instr.format, reduceCtorEq] at hi
  case poll a b =>
    obtain ⟨m, ms, e, -⟩ := pollReaction_writes a b s
    rw [execPoll_next h]
    split
    · exact .inl (by rw [e])
    · exact .inl rfl
  case resetStates =>
    cases Host.Outcome.next.inj h
    split <;> exact .inl rfl
  case hwReset =>
    cases Host.Outcome.next.inj h
    exact .inr ⟨rfl, rfl⟩
  all_goals
    cases Host.Outcome.next.inj h
    exact .inl rfl

/-- Of the events only `POLL` and `HWRESET` can write MODE or a previous level (R21, R29). -/
theorem exec_event_mode_levels {i : Instr} {s t : State} (hi : i.format = .event) (h : exec i s = .next t) :
    (t.mode = s.mode ∧ t.prevA = s.prevA ∧ t.prevB = s.prevB) ∨ (∃ a b, i = .poll a b) ∨ i = .hwReset := by
  cases i <;> simp only [Instr.format, reduceCtorEq] at hi
  case poll a b => exact .inr (.inl ⟨a, b, rfl⟩)
  case hwReset => exact .inr (.inr rfl)
  case resetStates =>
    cases Host.Outcome.next.inj h
    split <;> exact .inl ⟨rfl, rfl, rfl⟩
  all_goals
    cases Host.Outcome.next.inj h
    exact .inl ⟨rfl, rfl, rfl⟩

/-- The event that is delivered next is an operation of the event encoding. -/
theorem nextAction_event_format {s : State} {i : Instr} (h : (nextAction s).1 = .event i) : i.format = .event := by
  obtain ⟨⟨w, hw⟩, -⟩ := nextAction_event h
  exact (decodeEvent_ok hw).1

/-! ### The writers of OUT, of MODE and of the previous levels -/

/-- OUT after a step: as before, a tick's output, or emptied by `HWRESET`. -/
theorem step_out {s t : State} (h : step s = .next t) :
    t.out = s.out ∨ (nextAction s).1 = .service ∨ ((nextAction s).1 = .event .hwReset ∧ t.out = none) := by
  obtain ⟨_, _, e⟩ := nextAction_snd s
  have hout : (nextAction s).2.out = s.out := by rw [e]
  obtain ⟨-, ⟨-, rfl⟩ | ⟨i, ha, hx⟩ | ⟨ha, -⟩ | ⟨f, op, -, hx | rfl⟩⟩ := step_next h
  · exact .inl hout
  · obtain ho | ⟨rfl, ho⟩ := exec_event_out (nextAction_event_format ha) hx
    · exact .inl (ho.trans hout)
    · exact .inr (.inr ⟨ha, ho⟩)
  · exact .inr (.inl ha)
  · obtain ⟨-, -, -, -, -, -, -, -, ho⟩ := foregroundStep_keeps hx
    exact .inl (ho.trans hout)
  · exact .inl hout

/-- MODE and the previous levels after a step: as before, or the step is one of the poll agent or `HWRESET`. -/
theorem step_mode_levels {s t : State} (h : step s = .next t) :
    (t.mode = s.mode ∧ t.prevA = s.prevA ∧ t.prevB = s.prevB) ∨
      (∃ a b, (nextAction s).1 = .event (.poll a b)) ∨ (∃ f op, (nextAction s).1 = .foreground f op) ∨
      (nextAction s).1 = .event .hwReset := by
  obtain ⟨_, _, e⟩ := nextAction_snd s
  obtain ⟨-, ⟨-, rfl⟩ | ⟨i, ha, hx⟩ | ⟨-, hx⟩ | ⟨f, op, ha, -⟩⟩ := step_next h
  · exact .inl (by simp [e])
  · obtain hk | ⟨a, b, rfl⟩ | rfl := exec_event_mode_levels (nextAction_event_format ha) hx
    · exact .inl (by simpa [e] using hk)
    · exact .inr (.inl ⟨a, b, ha⟩)
    · exact .inr (.inr (.inr ha))
  · obtain ⟨r, rfl⟩ := service_completes hx
    exact .inl (by simp [e])
  · exact .inr (.inr (.inl ⟨f, op, ha⟩))

/-! ### The invariant, agent by agent

From a state that meets the invariant every agent's action completes, and its next state meets the invariant again. -/

/-- An update that leaves MODE, ModeState, FAULT, the foreground and the parameters alone keeps the invariant. -/
theorem State.Inv.congr {s t : State} (hs : s.Inv) (hm : t.mode = s.mode) (hms : t.ms = s.ms)
    (hfault : t.fault = s.fault) (hfore : t.fore = s.fore) (hp : t.params = s.params) : t.Inv := by
  simpa only [State.Inv, hm, hms, hfault, hfore, hp] using hs

theorem State.Inv.legalMode {s : State} (hs : s.Inv) : legalMode s.mode = true :=
  let ⟨hm, _⟩ := hs
  (legalMode_iff _).2 hm

theorem State.Inv.reasons {s : State} (hs : s.Inv) : s.fault.reasons = [] :=
  let ⟨_, _, hf, _⟩ := hs
  hf

/-- Choosing the next action keeps the invariant. -/
theorem nextAction_inv {s : State} (hs : s.Inv) : (nextAction s).2.Inv := by
  obtain ⟨_, _, e⟩ := nextAction_snd s
  rw [e]
  exact hs

/-- Choosing the next action leaves the operation in progress as it is. -/
theorem nextAction_fore (s : State) : (nextAction s).2.fore = s.fore := by
  obtain ⟨_, _, e⟩ := nextAction_snd s
  rw [e]

/-- The tick agent (R88): SERVICE completes and keeps the invariant. -/
theorem service_of_inv {s : State} (hs : s.Inv) : ∃ t, service s = .next t ∧ t.Inv := by
  obtain ⟨hm, hl, hf, hop⟩ := hs
  obtain ⟨r, hr, hl'⟩ := service_of_legal hm hl
  exact ⟨completeTick r s, hr, hm, hl', hf, hop⟩

theorem resetFields_nodup : resetFields.Nodup := by decide

/-- The operation a split poll starts has its levels to write, no reset under way. -/
theorem pollOperation_wf (a b : Bool) (s : State) : (pollOperation a b s).Wf :=
  ⟨rfl, List.nodup_nil, fun _ => rfl, nofun⟩

/-- The operation the startup call starts has the six distinct fields to reset, and no press. -/
theorem startupOperation_wf : startupOperation.Wf :=
  ⟨rfl, resetFields_nodup, nofun, fun _ => ⟨rfl, rfl⟩⟩

/-- A poll completes and keeps the invariant, in both forms. -/
theorem execPoll_of_inv {s : State} (hs : s.Inv) (a b : Bool) : ∃ t, execPoll a b s = .next t ∧ t.Inv := by
  refine ⟨_, execPoll_of_legalMode hs.legalMode a b, ?_⟩
  obtain ⟨m, ms, e, hm, hms⟩ := pollReaction_writes a b s
  have hm' := (legalMode_iff m).1 (hm hs.legalMode)
  obtain ⟨hm0, hl, hf, hop⟩ := hs
  cases hp : s.params.atomicModeChange with
  | true =>
    have hl' : ms.Legal := by
      obtain rfl | rfl := hms
      · exact hl
      · exact legal_initial
    simp only [if_true, e]
    exact ⟨hm', hl', hf, hop⟩
  | false =>
    refine ⟨hm0, hl, hf, ?_⟩
    rintro op ⟨⟩
    exact ⟨pollOperation_wf a b s, hp⟩

/-- `RESET_STATES` keeps the invariant, in both forms. -/
theorem execResetStates_of_inv {s : State} (hs : s.Inv) : ∃ t, execResetStates s = .next t ∧ t.Inv := by
  refine ⟨_, rfl, ?_⟩
  obtain ⟨hm, hl, hf, hop⟩ := hs
  cases hp : s.params.atomicModeChange with
  | true => exact ⟨hm, legal_initial, hf, hop⟩
  | false =>
    refine ⟨hm, hl, hf, ?_⟩
    rintro op ⟨⟩
    exact ⟨startupOperation_wf, hp⟩

/-- Power-on makes the registers legal and the foreground free; FAULT is kept (R260, R37). -/
theorem powerOn_inv {s : State} (hf : s.fault.reasons = []) : (powerOn s).Inv :=
  ⟨by simp, legal_initial, hf, nofun⟩

/-- The initial state of every block (R260, R261). -/
theorem resetWith_inv (p : Params) (snake : Vector Byte 11) (queue : Vector Byte 35) :
    (State.resetWith p snake queue).Inv :=
  ⟨by simp [State.resetWith], legal_initial, rfl, nofun⟩

/-- The environment: every event completes and keeps the invariant. -/
theorem exec_event_of_inv {i : Instr} {s : State} (hi : i.format = .event) (hs : s.Inv) :
    ∃ t, exec i s = .next t ∧ t.Inv := by
  cases i <;> simp only [Instr.format, reduceCtorEq] at hi
  case expire => exact ⟨setPend s, rfl, hs.congr rfl rfl rfl rfl rfl⟩
  case poll a b => exact execPoll_of_inv hs a b
  case resetStates => exact execResetStates_of_inv hs
  case tickDisable => exact ⟨setTen false s, rfl, hs.congr rfl rfl rfl rfl rfl⟩
  case tickEnable => exact ⟨setTen true s, rfl, hs.congr rfl rfl rfl rfl rfl⟩
  case hwReset => exact ⟨powerOn s, rfl, powerOn_inv hs.reasons⟩

/-- From a legal MODE the step that writes MODE completes (R193, R194). -/
theorem pressStep_of_legalMode {s : State} (hm : legalMode s.mode = true) (m : Byte) (op : Foreground) :
    pressStep m op s = .next (holdForeground { op with resetLeft := resetFields } (writeMode m s)) :=
  if_pos hm

/-- From a legal MODE a step of the split operation does not fault: only the two MODE writes can (R193, R194). -/
theorem foregroundStep_completes {f : ModeField} {op : Foreground} {s : State} {r : Result}
    (hm : legalMode s.mode = true) (h : foregroundStep f op s = some r) : ∃ t, r = .next t := by
  unfold foregroundStep at h
  split at h
  · split at h
    · exact ⟨_, (Option.some.inj h).symm⟩
    · cases h
  · split at h
    · exact ⟨_, (Option.some.inj h).symm.trans (pressStep_of_legalMode hm _ _)⟩
    · split at h
      · exact ⟨_, (Option.some.inj h).symm.trans (pressStep_of_legalMode hm _ _)⟩
      · split at h <;> exact ⟨_, (Option.some.inj h).symm⟩

/-- Legal registers, and an operation put back with well-formed parts, make the invariant (split form). -/
theorem holdForeground_inv {op : Foreground} {s : State} (hm : legalMode s.mode = true) (hl : s.ms.Legal)
    (hf : s.fault.reasons = []) (hp : s.params.atomicModeChange = false) (hnodup : op.resetLeft.Nodup)
    (hA : op.pressA = true → op.resetLeft = []) (hlevels : op.levels = none → op.pressA = false ∧ op.pressB = false) :
    (holdForeground op s).Inv :=
  ⟨(legalMode_iff _).1 hm, hl, hf, fun _ hq => ⟨holdForeground_wf hnodup hA hlevels hq, hp⟩⟩

/-- The poll agent: a step of the operation in progress keeps the invariant. The press of A is applied first, so the
reset that a press begins finds it applied. -/
theorem foregroundStep_inv {f : ModeField} {op : Foreground} {s t : State} (hs : s.Inv) (ho : s.fore = some op)
    (h : foregroundStep f op s = some (.next t)) : t.Inv := by
  have hlegal := hs.legalMode
  obtain ⟨-, hl, hf, hop⟩ := hs
  obtain ⟨⟨-, hnodup, hA, hlevels⟩, hp⟩ := hop op ho
  obtain ⟨-, rfl⟩ | ⟨-, -, hx⟩ | ⟨-, hA', -, hx⟩ | ⟨-, hA', hB', a, b, -, rfl⟩ | ⟨-, -, -, -, rfl⟩ :=
    foregroundStep_next h
  · refine holdForeground_inv hlegal (legal_resetField f hl) hf hp (hnodup.erase f) (fun h => ?_) hlevels
    simp [hA h]
  · obtain ⟨-, rfl⟩ := pressStep_next hx
    exact holdForeground_inv (legalMode_nextMode hlegal) hl hf hp resetFields_nodup nofun
      fun h => ⟨rfl, (hlevels h).2⟩
  · obtain ⟨-, rfl⟩ := pressStep_next hx
    exact holdForeground_inv (legalMode_prevMode hlegal) hl hf hp resetFields_nodup (fun h => by simp [hA'] at h)
      fun h => ⟨hA', rfl⟩
  · exact holdForeground_inv hlegal hl hf hp hnodup hA fun _ => ⟨hA', hB'⟩
  · exact holdForeground_inv hlegal hl hf hp hnodup hA hlevels

/-- A step from a state that meets the invariant: none is enabled, a reserved word is refused, or it completes and the
invariant holds again. -/
theorem step_of_inv {s : State} (hs : s.Inv) :
    step s = .fault .noStepEnabled ∨ (∃ w, step s = .refused (.reservedWord w)) ∨ ∃ t, step s = .next t ∧ t.Inv := by
  have hs' := nextAction_inv hs
  cases hst : s.stopped with
  | true => exact .inl (by simp [step, hst])
  | false =>
    refine .inr ?_
    rw [step_of_not_stopped hst]
    cases ha : (nextAction s).1 with
    | idle => exact .inr ⟨_, rfl, hs'⟩
    | event i => exact .inr (exec_event_of_inv (nextAction_event_format ha) hs')
    | reserved w => exact .inl ⟨w, rfl⟩
    | service => exact .inr (service_of_inv hs')
    | foreground f op =>
      have ho : (nextAction s).2.fore = some op := (nextAction_fore s).trans (nextAction_foreground ha)
      refine .inr ?_
      simp only [perform]
      cases hx : foregroundStep f op (nextAction s).2 with
      | none => exact ⟨_, rfl, hs'⟩
      | some r =>
        obtain ⟨t, rfl⟩ := foregroundStep_completes hs'.legalMode hx
        exact ⟨t, rfl, foregroundStep_inv hs' ho hx⟩

/-! ### The record of a stopped step -/

/-- With FAULT not empty no step is enabled (R37). -/
theorem step_of_stopped {s : State} (h : s.stopped = true) : step s = .fault .noStepEnabled := by
  simp [step, h]

/-- A step raises a fault only from a state with FAULT empty. -/
theorem stopped_of_step_raised {s : State} {r : FaultReason} (h : step s = .fault (.raised r)) :
    s.stopped = false := by
  cases hst : s.stopped with
  | true => rw [step_of_stopped hst] at h; cases h
  | false => rfl

theorem reasons_of_not_stopped {s : State} (h : s.stopped = false) : s.fault.reasons = [] := by
  simp only [State.stopped, FaultRecord.nonEmpty, Bool.or_eq_false_iff, Bool.not_eq_false', List.isEmpty_iff] at h
  exact h.2

/-- Adding a reason removes none. -/
theorem FaultRecord.mem_add {r q : FaultReason} {f : FaultRecord} (h : q ∈ f.reasons) : q ∈ (f.add r).reasons := by
  unfold FaultRecord.add
  split
  · exact h
  · exact List.mem_append_left _ h

@[simp] theorem FaultRecord.add_refused (r : FaultReason) (f : FaultRecord) : (f.add r).refused = f.refused := by
  unfold FaultRecord.add
  split <;> rfl

/-- A step, with the recording of a fault or a refusal it ends in, keeps the record's reasons and its mark. -/
theorem advance_fault_grows (s : State) :
    (∀ r ∈ s.fault.reasons, r ∈ (advance s).fault.reasons) ∧
      (s.fault.refused = true → (advance s).fault.refused = true) := by
  unfold advance
  cases h : step s with
  | next t =>
    obtain ⟨-, -, -, hf⟩ := step_keeps h
    simp [State.after, hf]
  | fault r =>
    cases r with
    | raised r => exact ⟨fun _ => FaultRecord.mem_add, by simp [State.after]⟩
    | noStepEnabled => exact ⟨fun _ => id, id⟩
  | refused r => exact ⟨fun _ => id, fun _ => rfl⟩

/-! ### The statements -/

/-- Settles O56: `step_of_inv`, agent by agent; a refusal adds no reason to FAULT. -/
theorem everyStepKeepsTheInvariant : Obligations.EveryStepKeepsTheInvariant := by
  constructor
  · intro s t hs h
    obtain hx | ⟨w, hx⟩ | ⟨u, hx, hu⟩ := step_of_inv hs <;> rw [hx] at h <;> cases h
    exact hu
  · intro s hs
    unfold advance
    obtain hx | ⟨w, hx⟩ | ⟨u, hx, hu⟩ := step_of_inv hs <;> rw [hx]
    · exact hs
    · exact hs
    · exact hu

/-- Settles O11: no operation writes FAULT, and what is recorded is added at its end. -/
theorem faultRecordIsStickyAndStopsTheMachine : Obligations.FaultRecordIsStickyAndStopsTheMachine := by
  refine ⟨stopped_of_fault_empty rfl, ?_, ?_, ?_, advance_fault_grows⟩
  · intro s h
    have hstep := step_of_stopped h
    exact ⟨hstep, by rw [advance, hstep]; rfl⟩
  · intro s t h
    obtain ⟨-, -, -, hf⟩ := step_keeps h
    exact hf
  · intro s r h
    have hr := reasons_of_not_stopped (stopped_of_step_raised h)
    simp [advance, h, State.after, FaultRecord.add, hr]

/-- Settles O52: the two inversions of a step by the registers it writes. -/
theorem modeLevelsAndOutHaveTheirWriters : Obligations.ModeLevelsAndOutHaveTheirWriters := by
  intro s t h
  constructor
  · exact fun hne => (step_out h).resolve_left hne
  · intro hne
    refine (step_mode_levels h).resolve_left ?_
    rintro ⟨hm, hA, hB⟩
    exact hne.elim (· hm) (·.elim (· hA) (· hB))

/-- Settles O53: with the same tables every read answers the same. -/
theorem noStepWritesTablesOrParameters : Obligations.NoStepWritesTablesOrParameters := by
  intro s t h
  obtain ⟨hsnake, hqueue, hp, -⟩ := step_keeps h
  exact ⟨hp, memRead_congr hsnake hqueue⟩

/-- Settles O57: `step_of_inv` leaves no room for a raised fault. -/
theorem noFaultIsRaisedFromLegalStates : Obligations.NoFaultIsRaisedFromLegalStates := by
  intro s r hs h
  obtain hx | ⟨w, hx⟩ | ⟨t, hx, -⟩ := step_of_inv hs <;> rw [hx] at h <;> cases h

/-- Settles O55: the reset values are legal whatever the parameters and the tables. -/
theorem initialStateMeetsTheInvariant : Obligations.InitialStateMeetsTheInvariant :=
  ⟨resetWith_inv _ _ _, resetWith_inv⟩

end Sys2Proof.Machine
end

section
/-! What a step delivers from the script and leaves in OUT (20_memory.md R45, 40_tick_handler.md R87), with its two
inductions over the length of a run; then the statements on the memory. -/

namespace Sys2Proof.Machine

/-! ### The script -/

/-- The next action is that of the agent whose turn it is, or no one's; choosing it consumes at most that turn. -/
theorem nextAction_cases (s : State) :
    ∃ turns, (∃ t, nextAction s = turnAction t { s with turns := turns }) ∨
      nextAction s = (.idle, { s with turns := turns }) := by
  obtain ⟨turns, hs⟩ := nextTurn_snd s
  refine ⟨turns, ?_⟩
  rw [← hs]
  unfold nextAction
  cases nextTurn s with
  | mk turn s1 =>
    cases turn with
    | some t => exact .inl ⟨t, rfl⟩
    | none => exact .inr rfl

/-- An agent's turn takes at most the first word of the script; the event it delivers is one the script holds. -/
theorem turnAction_script (t : Turn) (s : State) :
    (turnAction t s).2.script <:+ s.script ∧ ∀ i, (turnAction t s).1 = .event i → encode i ∈ s.script := by
  obtain e | ⟨w, ws, _, hw, -, e⟩ | ⟨w, ws, i, hw, hd, -, e⟩ | ⟨-, e⟩ | ⟨f, op, -, e⟩ := turnAction_cases t s <;>
    rw [e]
  · exact ⟨List.suffix_rfl, nofun⟩
  · exact ⟨hw ▸ List.suffix_cons w ws, nofun⟩
  · obtain ⟨-, rfl⟩ := decodeEvent_ok hd
    rw [hw]
    exact ⟨List.suffix_cons _ ws, by rintro _ ⟨⟩; exact List.mem_cons_self⟩
  · exact ⟨List.suffix_rfl, nofun⟩
  · exact ⟨List.suffix_rfl, nofun⟩

/-- Choosing the next action takes at most the first word of the script; the event to deliver is one the script
holds. -/
theorem nextAction_script (s : State) :
    (nextAction s).2.script <:+ s.script ∧ ∀ i, (nextAction s).1 = .event i → encode i ∈ s.script := by
  obtain ⟨turns, ⟨t, e⟩ | e⟩ := nextAction_cases s <;> rw [e]
  · exact turnAction_script t { s with turns := turns }
  · exact ⟨List.suffix_rfl, nofun⟩

/-- A step to a next state adds no word to the script. -/
theorem step_script {s t : State} (h : step s = .next t) : t.script <:+ s.script := by
  suffices ht : t.script = (nextAction s).2.script from ht ▸ (nextAction_script s).1
  obtain ⟨-, ⟨-, rfl⟩ | ⟨i, -, hx⟩ | ⟨-, hx⟩ | ⟨f, op, -, hx | rfl⟩⟩ := step_next h
  · rfl
  · obtain ⟨-, -, -, -, hw, -⟩ := exec_keeps hx
    exact hw
  · obtain ⟨r, rfl⟩ := service_completes hx
    simp
  · obtain ⟨-, -, -, -, hw, -⟩ := foregroundStep_keeps hx
    exact hw
  · rfl

/-! ### OUT -/

/-- A step that is a tick leaves a value in OUT (R81). -/
theorem step_service_out {s t : State} (h : step s = .next t) (ha : (nextAction s).1 = .service) :
    ∃ v, t.out = some v := by
  obtain ⟨h0, -⟩ := step_next h
  rw [step_of_not_stopped h0, ha] at h
  obtain ⟨r, rfl⟩ := service_completes h
  exact ⟨r.1, by simp⟩

/-- A step that is no tick leaves OUT alone, unless the script holds an `HWRESET` (R32). -/
theorem step_out_of_no_service {s t : State} (h : step s = .next t) (hw : 0xC2#8 ∉ s.script)
    (ha : (nextAction s).1 ≠ .service) : t.out = s.out := by
  obtain ho | hs | ⟨hr, -⟩ := step_out h
  · exact ho
  · exact absurd hs ha
  · exact absurd ((nextAction_script s).2 .hwReset hr) hw

/-- Each tick of a run adds one value to its outputs. -/
theorem length_outputs (k : Nat) (s : State) : (outputs k s).length = ticksTaken k s := by
  induction k generalizing s with
  | zero => rfl
  | succ k ih =>
    cases h : step s with
    | next t =>
      rw [outputs_succ h, ticksTaken_succ h, List.length_append, ih]
      by_cases ha : (nextAction s).1 = .service
      · obtain ⟨v, hv⟩ := step_service_out h ha
        simp [ha, hv]
      · simp [ha]
    | fault r => simp [outputs, ticksTaken, h]
    | refused r => simp [outputs, ticksTaken, h]

/-- After a run OUT is the last of its outputs, or as at the start if there is none. -/
theorem run_out {k : Nat} {s u : State} (hw : 0xC2#8 ∉ s.script) (h : Sys2Proof.core.run k s = .next u) :
    u.out = (outputs k s).getLast?.or s.out := by
  induction k generalizing s with
  | zero =>
    cases Host.Outcome.next.inj h
    rfl
  | succ k ih =>
    obtain ⟨t, hs, ht⟩ := run_succ_next h
    rw [ih (fun hm => hw ((step_script hs).mem hm)) ht, outputs_succ hs, List.getLast?_append, Option.or_assoc]
    by_cases ha : (nextAction s).1 = .service
    · obtain ⟨v, hv⟩ := step_service_out hs ha
      simp [ha, hv]
    · simp [ha, step_out_of_no_service hs hw ha]

/-! ### The statements -/

/-- Settles O54: the two inductions over the run, step by step. -/
theorem outShowsTheLastTick : Obligations.OutShowsTheLastTick := by
  intro k s t hw h
  refine ⟨length_outputs k s, ?_⟩
  rw [run_out hw h]
  cases (outputs k s).getLast? <;> rfl

/-- Settles O23: the read of each table, on the two sides of its length. -/
theorem tableReadsAreBoundsChecked : Obligations.TableReadsAreBoundsChecked := by
  intro s i
  simp only [memRead_snakeRom, memRead_queueRom]
  exact ⟨fun h => dif_pos h, fun h => dif_neg (Nat.not_lt.2 h), fun h => dif_pos h,
    fun h => dif_neg (Nat.not_lt.2 h)⟩

end Sys2Proof.Machine
end

section
/-! The two decoders row by row, and both directions of the round trip (30_encoding.md R60, R62, R67, R68); what the
delivery of a reserved word does; then the statements on the encodings. -/

namespace Sys2Proof

/-! ### The decoders -/

@[simp] theorem lookup_nil (w : Byte) : lookup [] w = none := rfl

/-- The first row decides, if the byte hits it; else the remaining rows do. -/
@[simp] theorem lookup_cons (r : OpRow) (rows : List OpRow) (w : Byte) :
    lookup (r :: rows) w = if w &&& r.mask = r.value then some (r.instr w) else lookup rows w := by
  by_cases h : w &&& r.mask = r.value <;> simp [lookup, OpRow.hits, h]

/-- A row whose mask is 0xFF compares the whole byte. -/
@[simp] theorem and_fullMask (w : Byte) : w &&& 0xFF#8 = w := BitVec.and_allOnes

/-- Settles O1: the six rows in their order, each a comparison of the masked byte. -/
theorem eventDecoderFollowsTheMasks : Obligations.EventDecoderFollowsTheMasks := by
  intro w
  simp only [decodeEvent, eventRows, lookup_cons, and_fullMask, lookup_nil]
  split_ifs <;> rfl

/-- A byte outside 1..9 is the value of no row (R61). -/
theorem decodeMode_of_outOfRange {m : Byte} (h : ¬(1 ≤ m.toNat ∧ m.toNat ≤ 9)) :
    decodeMode m = .error (.modeOutOfRange m) := by
  have hne (v : Byte) (h1 : 1 ≤ v.toNat) (h9 : v.toNat ≤ 9) : m ≠ v := by
    rintro rfl
    exact h ⟨h1, h9⟩
  simp [decodeMode, modeRows, hne]

/-- Settles O2: each of the nine values selects its row's operation, and any other byte none. -/
theorem modeValuesSelectTheTickOperations : Obligations.ModeValuesSelectTheTickOperations := by
  intro m
  by_cases h : 1 ≤ m.toNat ∧ m.toNat ≤ 9
  · obtain rfl | rfl | rfl | rfl | rfl | rfl | rfl | rfl | rfl := Machine.mode_cases h <;> rfl
  · rw [decodeMode_of_outOfRange h]
    split
    case h_10 => rfl
    all_goals omega

/-! ### The round trip -/

/-- The family `RoundTrip` holds of every operation. -/
theorem roundTrip (i : Instr) : Laws.RoundTrip.Statement i :=
  match i with
  | .tickInc => Laws.RoundTrip.tickInc
  | .tickDec => Laws.RoundTrip.tickDec
  | .tickGrayUp => Laws.RoundTrip.tickGrayUp
  | .tickGrayDown => Laws.RoundTrip.tickGrayDown
  | .tickBcdUp => Laws.RoundTrip.tickBcdUp
  | .tickBcdDown => Laws.RoundTrip.tickBcdDown
  | .tickSnake => Laws.RoundTrip.tickSnake
  | .tickQueue => Laws.RoundTrip.tickQueue
  | .tickLfsr => Laws.RoundTrip.tickLfsr
  | .expire => Laws.RoundTrip.expire
  | .poll a b => Laws.RoundTrip.poll a b
  | .resetStates => Laws.RoundTrip.resetStates
  | .tickDisable => Laws.RoundTrip.tickDisable
  | .tickEnable => Laws.RoundTrip.tickEnable
  | .hwReset => Laws.RoundTrip.hwReset

theorem wfIn_iff {f : Format} {i : Instr} : i.wfIn f = true ↔ i.format = f := by
  simp [Instr.wfIn]

/-- An event's word decodes to it. -/
theorem decodeEvent_encode {i : Instr} (hi : i.format = .event) : decodeEvent (encode i) = .ok i := by
  obtain ⟨-, h⟩ := roundTrip i
  rw [hi] at h
  exact h.1

/-- A tick operation's MODE value selects it. -/
theorem decodeMode_encode {i : Instr} (hi : i.format = .mode) : decodeMode (encode i) = .ok i := by
  obtain ⟨-, h⟩ := roundTrip i
  rw [hi] at h
  exact h.1

/-- Settles O3: the round trip from the operation, then from the byte, in each encoding. -/
theorem encodingRoundTrips : Obligations.EncodingRoundTrips := by
  simp only [Obligations.EncodingRoundTrips, wfIn_iff]
  exact ⟨fun _ => decodeEvent_encode, fun _ => decodeMode_encode, fun _ _ => decodeEvent_ok, fun _ _ => decodeMode_ok⟩

/-! ### Script lines -/

/-- A well-formed line expands to events only: no line spells a tick operation (R70). -/
theorem expand_format {l : ScriptLine} (hl : l.wf = true) : ∀ i ∈ l.expand, i.format = .event := by
  cases l with
  | event j => exact List.forall_mem_singleton.2 (wfIn_iff.1 hl)
  | ticks n => exact fun i hi => List.eq_of_mem_replicate hi ▸ rfl
  | tick | idle | pressA | pressB | pressAB | boot => decide

/-- The words of events are read back as those events, in order. -/
theorem map_decodeEvent_encode {is : List Instr} (h : ∀ i ∈ is, i.format = .event) :
    (is.map encode).map decodeEvent = is.map .ok := by
  rw [List.map_map]
  exact List.map_congr_left fun i hi => decodeEvent_encode (h i hi)

/-- Settles O5: the lines expand to events, and events' words are read back; each expansion is its defining
equation. -/
theorem assembledScriptDecodesToItsEvents : Obligations.AssembledScriptDecodesToItsEvents := by
  refine ⟨fun lines hwf => map_decodeEvent_encode fun i hi => ?_, fun _ _ => rfl, rfl, fun n _ => ?_,
    rfl, rfl, rfl, rfl, rfl⟩
  · obtain ⟨l, hl, hi⟩ := List.mem_flatMap.1 hi
    exact expand_format (hwf l hl) i hi
  · exact ⟨List.length_replicate, fun _ => List.eq_of_mem_replicate⟩

end Sys2Proof

namespace Sys2Proof.Machine

/-! ### Reserved words -/

/-- The bytes that the mask of `POLL` accepts (R62). -/
theorem pollMask_iff : ∀ w : Byte, w &&& 0xFC#8 = 0x40#8 ↔ 0x40 ≤ w.toNat ∧ w.toNat ≤ 0x43 := by
  decide +kernel

/-- A word is reserved exactly when no event row has it (R67, R68). -/
theorem decodeEvent_reserved_iff (w : Byte) : decodeEvent w = .error (.reserved w) ↔
    w.toNat ≠ 0x00 ∧ ¬(0x40 ≤ w.toNat ∧ w.toNat ≤ 0x43) ∧ w.toNat ≠ 0x80 ∧ w.toNat ≠ 0xC0 ∧ w.toNat ≠ 0xC1 ∧
      w.toNat ≠ 0xC2 := by
  simp only [eventDecoderFollowsTheMasks w, pollMask_iff]
  simp only [BitVec.toNat_eq, BitVec.reduceToNat]
  split_ifs <;> simp [*]

/-- The environment's turn, its next word reserved: the step is refused (R67). -/
theorem step_environment_turn_reserved {s : State} {w : Byte} {ws : List Byte} {ts : List Turn} {e : Reject}
    (h0 : s.stopped = false) (ht : s.turns = .environment :: ts) (hw : s.script = w :: ws)
    (he : decodeEvent w = .error e) : step s = .refused (.reservedWord w) := by
  rw [step_of_not_stopped h0, nextAction_of_turn ht]
  simp [turnAction, environmentTurn, hw, he, perform]

/-- Settles O4: the reserved words are the gaps between the event rows' words, and the state a refusal leaves has
only the mark set. -/
theorem reservedWordsAreRefused : Obligations.ReservedWordsAreRefused := by
  refine ⟨fun w => ?_, fun s w ws ts h0 ht hw he => ?_⟩
  · have := w.isLt
    rw [decodeEvent_reserved_iff]
    omega
  · have hs := step_environment_turn_reserved h0 ht hw he
    exact ⟨hs, by rw [advance, hs]; rfl⟩

end Sys2Proof.Machine
end

section
/-! The machine run on a script in the one-step form, against the reference schedule as one function (30_encoding.md
R71): operations do not look at the script, so the machine, which carries the words still to come, follows
`referenceRun` event by event; then the statement on the schedule. -/

namespace Sys2Proof.Machine

/-! ### Operations do not look at the script -/

/-- What a poll does is the same whatever is still to be delivered. -/
theorem pollReaction_withScript (a b : Bool) (s : State) (ws : List Byte) :
    pollReaction a b { s with script := ws } = { pollReaction a b s with script := ws } := by
  have hA : State.edgeA { s with script := ws } a = s.edgeA a := rfl
  have hB : State.edgeB { s with script := ws } b = s.edgeB b := rfl
  rw [pollReaction, pollReaction, hA, hB]
  cases s.edgeA a <;> cases s.edgeB b <;> rfl

/-- What an operation does is the same whatever is still to be delivered. -/
theorem exec_withScript {i : Instr} {s t : State} (ws : List Byte) (h : exec i s = .next t) :
    exec i { s with script := ws } = .next { t with script := ws } := by
  cases i
  case tickSnake =>
    obtain ⟨x, hx, rfl⟩ := tableTick_next h
    exact congrArg (tableTick · { s with script := ws }) hx
  case tickQueue =>
    obtain ⟨x, hx, rfl⟩ := tableTick_next h
    exact congrArg (tableTick · { s with script := ws }) hx
  case poll a b =>
    have hf : pollFaults a b s = false := by
      cases hf : pollFaults a b s with
      | false => rfl
      | true => simp [exec, execPoll, hf] at h
    have hf' : pollFaults a b { s with script := ws } = false := hf
    rw [execPoll_next h, exec, execPoll, hf', pollReaction_withScript]
    cases s.params.atomicModeChange <;> rfl
  case resetStates =>
    cases Host.Outcome.next.inj h
    rw [exec, execResetStates]
    cases s.params.atomicModeChange <;> rfl
  all_goals
    cases Host.Outcome.next.inj h
    rfl

/-- A tick is the same whatever is still to be delivered. -/
theorem service_withScript {s t : State} (ws : List Byte) (h : service s = .next t) :
    service { s with script := ws } = .next { t with script := ws } := by
  obtain ⟨i, hd, he⟩ := service_next h
  rw [service_of_decodeMode (s := { s with script := ws }) hd]
  exact exec_withScript ws he

/-! ### Between two events -/

/-- Between two events of the one-step form: no fault, no operation in progress, no script of its own, and the reference
schedule in force. -/
structure State.BetweenEvents (s : State) : Prop where
  notStopped : s.stopped = false
  fore : s.fore = none
  turns : s.turns = []
  script : s.script = []
  oneStep : s.params.atomicModeChange = true

/-- In the one-step form no operation leaves anything in progress (R190, R182). -/
theorem exec_fore_of_oneStep {i : Instr} {s t : State} (hp : s.params.atomicModeChange = true) (hf : s.fore = none)
    (h : exec i s = .next t) : t.fore = none := by
  by_cases hi : i.format = .mode
  · obtain ⟨r, rfl⟩ := exec_tick_next hi h
    exact hf
  · cases i <;> simp only [Instr.format, not_true_eq_false] at hi
    case poll a b =>
      obtain ⟨m, ms, e, -⟩ := pollReaction_writes a b s
      rw [execPoll_next h, if_pos hp, e]
      exact hf
    case resetStates =>
      cases Host.Outcome.next.inj h
      rw [if_pos hp]
      exact hf
    case hwReset =>
      cases Host.Outcome.next.inj h
      rfl
    all_goals
      cases Host.Outcome.next.inj h
      exact hf

/-- An operation of the one-step form leads from between two events to between two events. -/
theorem betweenEvents_of_exec {i : Instr} {s t : State} (hs : s.BetweenEvents) (h : exec i s = .next t) :
    t.BetweenEvents := by
  obtain ⟨-, -, hp, hfault, hw, ht⟩ := exec_keeps h
  exact {
    notStopped := by rw [State.stopped, hfault]; exact hs.notStopped
    fore := exec_fore_of_oneStep hs.oneStep hs.fore h
    turns := ht.trans hs.turns
    script := hw.trans hs.script
    oneStep := hp ▸ hs.oneStep }

/-- So does a tick, which is then no longer pending (R81). -/
theorem betweenEvents_of_service {s t : State} (hs : s.BetweenEvents) (h : service s = .next t) :
    t.BetweenEvents ∧ t.serviceEnabled = false := by
  obtain ⟨i, -, he⟩ := service_next h
  obtain ⟨r, rfl⟩ := service_completes h
  exact ⟨betweenEvents_of_exec hs he, serviceEnabled_eq_false (.inl rfl)⟩

/-! ### The simulation -/

/-- A reference run that ends in a next state: its first event, the tick if one is then enabled, and the rest. -/
theorem referenceRun_cons_next {i : Instr} {is : List Instr} {s u : State} (h : referenceRun (i :: is) s = .next u) :
    ∃ s1 s2, exec i s = .next s1 ∧
      (s1.serviceEnabled = true ∧ service s1 = .next s2 ∨ s1.serviceEnabled = false ∧ s2 = s1) ∧
      referenceRun is s2 = .next u := by
  simp only [referenceRun] at h
  split at h
  case h_1 s1 h1 =>
    cases he : s1.serviceEnabled <;> simp only [he, Bool.false_eq_true, if_false, if_true] at h
    · exact ⟨s1, s1, h1, .inr ⟨he, rfl⟩, h⟩
    · split at h
      case h_1 s2 h2 => exact ⟨s1, s2, h1, .inl ⟨he, h2⟩, h⟩
      case h_2 hne => exact absurd h (hne u)
  case h_2 hne => exact absurd h (hne u)

/-- The machine delivers the next event of its script, and keeps the words after it. -/
theorem step_event_withScript {i : Instr} {ws : List Byte} {s t : State} (hs : s.BetweenEvents)
    (hq : s.serviceEnabled = false) (hi : i.format = .event) (h : exec i s = .next t) :
    step { s with script := encode i :: ws } = .next { t with script := ws } := by
  have hd := step_deliver (s := { s with script := encode i :: ws }) hs.notStopped hs.turns hs.fore hq rfl
    (decodeEvent_encode hi)
  rw [hd.1]
  exact exec_withScript (s := s) ws h

/-- The machine takes the tick that is pending and enabled before any further word. -/
theorem step_service_withScript {ws : List Byte} {s t : State} (hs : s.BetweenEvents)
    (hq : s.serviceEnabled = true) (h : service s = .next t) :
    step { s with script := ws } = .next { t with script := ws } := by
  simp only [State.serviceEnabled, Bool.and_eq_true] at hq
  obtain ⟨⟨hp, hten⟩, -⟩ := hq
  have ht := step_tick (s := { s with script := ws }) hs.notStopped hs.turns hs.fore hp hten
  rw [ht.1]
  exact service_withScript ws h

/-- The machine follows a reference run: one step for each event, and one for the tick after it, if there is one. -/
theorem run_of_referenceRun {is : List Instr} {s u : State} (hs : s.BetweenEvents) (hq : s.serviceEnabled = false)
    (hev : ∀ i ∈ is, i.format = .event) (h : referenceRun is s = .next u) :
    ∃ k, Sys2Proof.core.run k { s with script := is.map encode } = .next u := by
  induction is generalizing s with
  | nil =>
    obtain rfl := Host.Outcome.next.inj h
    have hself : { s with script := [] } = s := by rw [← hs.script]
    exact ⟨0, congrArg Host.Outcome.next hself⟩
  | cons i is ih =>
    obtain ⟨s1, s2, h1, h2, h3⟩ := referenceRun_cons_next h
    obtain ⟨hi, his⟩ := List.forall_mem_cons.1 hev
    have hb := betweenEvents_of_exec hs h1
    have hstep := step_event_withScript (ws := is.map encode) hs hq hi h1
    obtain ⟨he, h2⟩ | ⟨he, rfl⟩ := h2
    · obtain ⟨hb2, hq2⟩ := betweenEvents_of_service hb h2
      obtain ⟨k, hk⟩ := ih hb2 hq2 his h3
      refine ⟨k + 2, ?_⟩
      rw [List.map_cons, run_succ_of_next hstep, run_succ_of_next (step_service_withScript hb he h2), hk]
    · obtain ⟨k, hk⟩ := ih hb he his h3
      refine ⟨k + 1, ?_⟩
      rw [List.map_cons, run_succ_of_next hstep, hk]

/-- Settles O59: the machine's words are the events', and it follows the reference run event by event. -/
theorem referenceScheduleRunsAScript : Obligations.ReferenceScheduleRunsAScript := by
  intro is s t h0 hf ht hw hp hq hev h
  exact run_of_referenceRun ⟨h0, hf, ht, hw, hp⟩ (serviceEnabled_eq_false hq) (fun i hi => wfIn_iff.1 (hev i hi)) h

end Sys2Proof.Machine
end

section
/-! SERVICE on its turn and the pending flag (40_tick_handler.md R80, R81, R86, R89, R90): a tick turn passed over, a
tick that finds an illegal MODE, and, step by step under the reference schedule, the ticks of a run; then the statements
on the tick handler. -/

namespace Sys2Proof.Machine

/-! ### The tick's turn -/

/-- The tick's turn with no tick to take: the turn is consumed and nothing else is done. -/
theorem step_tick_turn_passed {s : State} {ts : List Turn} (h0 : s.stopped = false) (ht : s.turns = .tick :: ts)
    (hq : s.serviceEnabled = false) : step s = .next { s with turns := ts } := by
  have ha : turnAction .tick { s with turns := ts } = (.idle, { s with turns := ts }) :=
    if_neg (ne_true_of_eq_false hq)
  rw [step_of_not_stopped h0, nextAction_of_turn ht, ha, perform]

/-- SERVICE raises the fault of a MODE that selects no tick operation (R86). -/
theorem service_of_outOfRange {s : State} (h : ¬(1 ≤ s.mode.toNat ∧ s.mode.toNat ≤ 9)) :
    service s = raise (.modeOutOfRange s.mode) := by
  simp only [service, decodeMode_of_outOfRange h]

/-- A state is not stopped only with FAULT empty (R37). -/
theorem fault_of_not_stopped {s : State} (h : s.stopped = false) : s.fault = FaultRecord.empty := by
  cases hf : s.fault
  simpa [State.stopped, FaultRecord.nonEmpty, FaultRecord.empty, hf, and_comm] using h

/-- A raised fault is the only reason in the record it leaves, since the step was enabled (R37, R221). -/
theorem advance_of_raise {s : State} {r : FaultReason} (h : step s = raise r) :
    advance s = { s with fault := ⟨[r], false⟩ } := by
  have hf := fault_of_not_stopped (stopped_of_step_raised h)
  simp [advance, h, raise, State.after, FaultRecord.add, hf, FaultRecord.empty]

/-! ### The ticks of a run, step by step -/

/-- No fault, no operation in progress, and the reference schedule in force: the tick goes first if it is pending and
enabled, and else the environment's next word. -/
structure State.Free (s : State) : Prop where
  notStopped : s.stopped = false
  fore : s.fore = none
  turns : s.turns = []

/-- A delivered event is no tick. -/
theorem ticksTaken_deliver {n : Nat} {s t : State} {w : Byte} {ws : List Byte} {i : Instr} (hs : s.Free)
    (hq : s.serviceEnabled = false) (hw : s.script = w :: ws) (hi : decodeEvent w = .ok i)
    (h : exec i { s with script := ws } = .next t) : ticksTaken (n + 1) s = ticksTaken n t := by
  obtain ⟨hstep, ha⟩ := step_deliver hs.notStopped hs.turns hs.fore hq hw hi
  simp [ticksTaken_succ (hstep.trans h), ha]

/-- With nothing to do no tick is taken, however long one waits. -/
theorem ticksTaken_idle {n : Nat} {s : State} (hs : s.Free) (hq : s.serviceEnabled = false) (hw : s.script = []) :
    ticksTaken n s = 0 := by
  obtain ⟨hstep, ha⟩ := step_idle hs.notStopped hs.turns hs.fore hq hw
  induction n with
  | zero => rfl
  | succ n ih => simp [ticksTaken_succ hstep, ha, ih]

/-- An expiry while the tick is masked sets PEND and takes no tick (R89). -/
theorem ticksTaken_masked_expire {s : State} (hs : s.Free) (hten : s.ten = false) (n : Nat) (ws : List Byte) :
    ticksTaken (n + 1) { s with script := 0x00#8 :: ws } = ticksTaken n { s with script := ws, pend := true } :=
  ticksTaken_deliver ⟨hs.notStopped, hs.fore, hs.turns⟩ (serviceEnabled_eq_false (.inr hten)) rfl
    decodeEvent_expire rfl

/-- One or more expiries while the tick is masked leave what a single one leaves: they merge (R90). -/
theorem ticksTaken_masked_expiries {s : State} (hs : s.Free) (hten : s.ten = false) (k n : Nat) (ws : List Byte) :
    ticksTaken (n + k + 1) { s with script := List.replicate (k + 1) 0x00#8 ++ ws } =
      ticksTaken n { s with script := ws, pend := true } := by
  induction k generalizing s with
  | zero => exact ticksTaken_masked_expire hs hten n ws
  | succ k ih =>
    rw [List.replicate_succ, List.cons_append, ticksTaken_masked_expire hs hten]
    exact ih (s := { s with pend := true }) ⟨hs.notStopped, hs.fore, hs.turns⟩ hten

/-- A tick pending and enabled, with nothing to be delivered, is taken once: it clears PEND, and nothing sets the flag
again (R81). -/
theorem ticksTaken_pending {n : Nat} {s : State} (hs : s.Free) (hinv : s.Inv) (hp : s.pend = true)
    (hten : s.ten = true) (hw : s.script = []) : ticksTaken (n + 1) s = 1 := by
  obtain ⟨hm, hl, -⟩ := hinv
  obtain ⟨r, hr, -⟩ := service_of_legal hm hl
  obtain ⟨hstep, ha⟩ := step_tick hs.notStopped hs.turns hs.fore hp hten
  have hidle : ticksTaken n (completeTick r s) = 0 :=
    ticksTaken_idle ⟨hs.notStopped, hs.fore, hs.turns⟩ (serviceEnabled_eq_false (.inl rfl)) hw
  rw [ticksTaken_succ (hstep.trans hr), if_pos ha, hidle]

/-- A masked tick that is pending is taken once, after the `TICK_ENABLE` that unmasks it (R224). -/
theorem ticksTaken_unmasked {n : Nat} {s : State} (hs : s.Free) (hinv : s.Inv) (hp : s.pend = true)
    (hten : s.ten = false) (hw : s.script = [0xC1#8]) : ticksTaken (n + 2) s = 1 := by
  rw [ticksTaken_deliver hs (serviceEnabled_eq_false (.inr hten)) hw decodeEvent_tickEnable rfl]
  exact ticksTaken_pending ⟨hs.notStopped, hs.fore, hs.turns⟩ (hinv.congr rfl rfl rfl rfl rfl) hp rfl rfl

/-- A state that meets the invariant and has no refusal on record is not stopped. -/
theorem State.Inv.not_stopped {s : State} (hs : s.Inv) (hr : s.fault.refused = false) : s.stopped = false := by
  simp [State.stopped, FaultRecord.nonEmpty, hs.reasons, hr]

/-! ### The statements -/

/-- Settles O34: the expiries merge in PEND, and the one pending tick is taken once it is unmasked. -/
theorem maskedExpiriesGiveOneTick : Obligations.MaskedExpiriesGiveOneTick := by
  intro s k m hinv hr hf ht hten hk
  obtain ⟨j, rfl⟩ := Nat.exists_eq_add_of_le' hk
  have hs : s.Free := ⟨hinv.not_stopped hr, hf, ht⟩
  have hsteps : j + 1 + 2 + m = m + 2 + j + 1 := by omega
  rw [hsteps, ticksTaken_masked_expiries hs hten]
  exact ticksTaken_unmasked ⟨hs.notStopped, hf, ht⟩ (hinv.congr rfl rfl rfl rfl rfl) rfl hten rfl

/-- Settles O7: on the tick's turn by `step_tick_turn`, under the reference schedule by `step_tick`; SERVICE then reads
MODE. -/
theorem stepRunsTheTickThatModeSelects : Obligations.StepRunsTheTickThatModeSelects := by
  intro s i h0 hp hten hi
  constructor
  · intro ts ht
    rw [step_tick_turn h0 ht hp hten]
    exact service_of_decodeMode hi
  · intro ht hf
    obtain ⟨hstep, -⟩ := step_tick h0 ht hf hp hten
    exact hstep.trans (service_of_decodeMode hi)

/-- Settles O9: the turn is taken, passed over, or not reached because no step is enabled. -/
theorem tickIsTakenExactlyWhenPendingAndEnabled : Obligations.TickIsTakenExactlyWhenPendingAndEnabled := by
  intro s ts ht
  refine ⟨?_, ?_, step_of_stopped⟩
  · rintro ⟨hp, hten, h0⟩
    exact step_tick_turn h0 ht hp hten
  · rintro ⟨hn, h0⟩
    have hbit : s.pend = false ∨ s.ten = false := by simpa [imp_iff_not_or] using hn
    exact step_tick_turn_passed h0 ht (serviceEnabled_eq_false hbit)

/-- Settles O12: SERVICE raises the fault, and a raised fault is recorded with nothing else changed. -/
theorem tickOnIllegalModeFaults : Obligations.TickOnIllegalModeFaults := by
  intro s hm
  have hout : ¬(1 ≤ s.mode.toNat ∧ s.mode.toNat ≤ 9) := by omega
  refine ⟨service_of_outOfRange hout, fun ts h0 ht hp hten => advance_of_raise ?_⟩
  rw [step_tick_turn h0 ht hp hten]
  exact service_of_outOfRange (s := { s with turns := ts }) hout

/-- Settles O32: the word's row, and the one write of `setPend`. -/
theorem expireSetsPending : Obligations.ExpireSetsPending :=
  ⟨decodeEvent_expire, fun _ => rfl⟩

end Sys2Proof.Machine
end

section
/-! Modes 1 to 4 (41_accumulator_modes.md): the Gray code and how it moves with its argument, the four ticks as
additions to ACC, and ticks in a row under the reference schedule (30_encoding.md R71); then the statements on the
accumulator modes. -/

namespace Sys2Proof.Machine

/-! ### The Gray code -/

/-- R104 at every bit: above bit 7 a byte has only zeros, so bit 7 needs no case of its own. -/
theorem getLsbD_gray (a : Byte) (i : Nat) : (gray a).getLsbD i = (a.getLsbD i ^^ a.getLsbD (i + 1)) := by
  rw [gray, BitVec.getLsbD_xor, BitVec.getLsbD_ushiftRight, Nat.add_comm 1 i]

/-- The code as a number. -/
theorem toNat_gray (a : Byte) : (gray a).toNat = a.toNat ^^^ (a.toNat / 2) := by
  rw [gray, BitVec.toNat_xor, BitVec.toNat_ushiftRight, Nat.shiftRight_eq_div_pow, Nat.pow_one]

/-- Adding 1 changes a bit exactly when all bits below it are set. -/
theorem getLsbD_add_one (a : Byte) (j : Nat) :
    (a + 1#8).getLsbD j = (a.getLsbD j ^^ decide (j < 8 ∧ ∀ i < j, a.getLsbD i = true)) := by
  have hneg : a + 1#8 = -~~~a := by rw [BitVec.neg_eq_not_add, BitVec.not_not]
  by_cases hj : j < 8
  · have hlow : decide (∃ i < j, (~~~a).getLsbD i = true) = !decide (∀ i < j, a.getLsbD i = true) := by
      rw [← decide_not, decide_eq_decide]
      push Not
      refine exists_congr fun i => and_congr_right fun hi => ?_
      simp [show i < 8 by omega]
    rw [hneg, BitVec.getLsbD_neg, BitVec.getLsbD_not, hlow]
    simp only [hj, decide_true, Bool.true_and, true_and, Bool.not_xor, Bool.xor_not, Bool.not_not]
  · simp [hj, BitVec.getLsbD_of_ge _ j (Nat.le_of_not_lt hj)]

/-- Adding 1 changes a run of low bits, from bit 0 to the first zero or to bit 7, and no other bit. -/
theorem exists_run_add_one (a : Byte) :
    ∃ k < 8, ∀ j, (a + 1#8).getLsbD j = (a.getLsbD j ^^ decide (j ≤ k)) := by
  have hex : ∃ k, k = 7 ∨ a.getLsbD k = false := ⟨7, .inl rfl⟩
  have hle : Nat.find hex ≤ 7 := Nat.find_le (.inl rfl)
  refine ⟨Nat.find hex, by omega, fun j => ?_⟩
  have hrun : (j < 8 ∧ ∀ i < j, a.getLsbD i = true) ↔ j ≤ Nat.find hex := by
    simp only [Nat.le_find_iff, not_or, Bool.not_eq_false]
    constructor
    · exact fun ⟨hj, h⟩ i hi => ⟨by omega, h i hi⟩
    · exact fun h => ⟨by by_contra hj; exact (h 7 (by omega)).1 rfl, fun i hi => (h i hi).2⟩
  rw [getLsbD_add_one, decide_eq_decide.2 hrun]

/-- Two bytes differ in exactly one bit. -/
def OneBitApart (v w : Byte) : Prop :=
  ∃ k : Nat, k < 8 ∧ ∀ j, j < 8 → ((v.getLsbD j ≠ w.getLsbD j) ↔ j = k)

theorem OneBitApart.symm {v w : Byte} (h : OneBitApart v w) : OneBitApart w v := by
  obtain ⟨k, hk, h⟩ := h
  exact ⟨k, hk, fun j hj => ne_comm.trans (h j hj)⟩

/-- R106, upwards: a run of low bits changes in the argument, so only the bit at its end changes in the code. -/
theorem oneBitApart_gray_add_one (a : Byte) : OneBitApart (gray a) (gray (a + 1#8)) := by
  obtain ⟨k, hk, h⟩ := exists_run_add_one a
  refine ⟨k, hk, fun j _ => ?_⟩
  have hend : (decide (j ≤ k) ^^ decide (j + 1 ≤ k)) = decide (j = k) := by
    obtain hj | rfl | hj := Nat.lt_trichotomy j k
    · simp [hj.le, hj, hj.ne]
    · simp
    · simp [hj.not_ge, hj.ne', show ¬j < k by omega]
  have hcode : (gray (a + 1#8)).getLsbD j = ((gray a).getLsbD j ^^ decide (j = k)) := by
    rw [getLsbD_gray, getLsbD_gray, h, h, ← hend]
    rw [Bool.xor_assoc, Bool.xor_left_comm (decide (j ≤ k)), ← Bool.xor_assoc]
  rw [hcode]
  cases (gray a).getLsbD j <;> simp

/-- R106, downwards. -/
theorem oneBitApart_gray_sub_one (a : Byte) : OneBitApart (gray a) (gray (a + 255#8)) := by
  have hback : a + 255#8 + 1#8 = a := (BitVec.add_assoc a 255#8 1#8).trans (BitVec.add_zero a)
  simpa only [hback] using (oneBitApart_gray_add_one (a + 255#8)).symm

/-! ### The four ticks -/

/-- ModeState with `d` added to ACC modulo 256: every tick of modes 1 to 4 does this, with `d` = 1 or 255
(R100-R103). -/
def ModeState.addAcc (d : Byte) (ms : ModeState) : ModeState := { ms with acc := ms.acc + d }

@[simp] theorem addAcc_acc (d : Byte) (ms : ModeState) : (ms.addAcc d).acc = ms.acc + d := rfl

theorem read_addAcc_of_ne {d : Byte} {ms : ModeState} {f : ModeField} (h : f ≠ .acc) :
    (ms.addAcc d).read f = ms.read f := by
  cases f with
  | acc => exact absurd rfl h
  | _ => rfl

/-- What a Gray-coded tick that takes ACC from `old` to `new` outputs (R102, R103). -/
def grayOut (order : GrayOrder) (old new : Byte) : Byte :=
  match order with
  | .updateThenOutput => gray new
  | .outputThenUpdate => gray old

/-- The tick of mode 3 (`d` = 1) and of mode 4 (`d` = 255). -/
def grayTick (d : Byte) (s : State) : State :=
  completeTick (grayOut s.params.grayOrder s.ms.acc (s.ms.acc + d), s.ms.addAcc d) s

theorem grayRule_add (order : GrayOrder) (d : Byte) (ms : ModeState) :
    grayRule order (ms.acc + d) ms = (grayOut order ms.acc (ms.acc + d), ms.addAcc d) := by
  cases order <;> rfl

theorem exec_tickInc (s : State) : exec .tickInc s = .next (completeTick (s.ms.acc, s.ms.addAcc 1#8) s) := rfl

/-- Lowering by 1 is adding 255 modulo 256. -/
theorem exec_tickDec (s : State) : exec .tickDec s = .next (completeTick (s.ms.acc, s.ms.addAcc 255#8) s) := by
  rw [exec, execTickDec, decRule, BitVec.sub_eq_add_neg]
  rfl

theorem exec_tickGrayUp (s : State) : exec .tickGrayUp s = .next (grayTick 1#8 s) := by
  rw [exec, execTickGrayUp, grayUpRule, grayRule_add, grayTick]

theorem exec_tickGrayDown (s : State) : exec .tickGrayDown s = .next (grayTick 255#8 s) := by
  have hsub : s.ms.acc - 1#8 = s.ms.acc + 255#8 := BitVec.sub_eq_add_neg s.ms.acc 1#8
  rw [exec, execTickGrayDown, grayDownRule, hsub, grayRule_add, grayTick]

/-- The end of a tick meets R81 and R84 for the registers that its rule may write. -/
theorem tickDone_completeTick {fs : List ModeField} {r : Byte × ModeState} {s : State}
    (h : ∀ f, f ∉ fs → r.2.read f = s.ms.read f) : TickDone r.1.toNat fs s (completeTick r s) :=
  ⟨rfl, rfl, rfl, rfl, rfl, rfl, rfl, h, ⟨rfl, memRead_congr rfl rfl⟩, rfl, rfl, rfl⟩

/-- A tick that adds to ACC and writes no other register. -/
theorem tickDone_addAcc (v d : Byte) (s : State) :
    TickDone v.toNat [.acc] s (completeTick (v, s.ms.addAcc d) s) :=
  tickDone_completeTick fun _ hf => read_addAcc_of_ne (List.ne_of_not_mem_cons hf)

/-- A Gray-coded tick outputs the code of the new ACC or of the old one, as `GRAY_ORDER` says (R102, R103). -/
theorem tickDone_grayTick (d : Byte) (s : State) :
    (s.params.grayOrder = .updateThenOutput →
      TickDone ((grayTick d s).ms.acc.toNat ^^^ ((grayTick d s).ms.acc.toNat / 2)) [.acc] s (grayTick d s)) ∧
    (s.params.grayOrder = .outputThenUpdate →
      TickDone (s.ms.acc.toNat ^^^ (s.ms.acc.toNat / 2)) [.acc] s (grayTick d s)) := by
  constructor
  all_goals
    intro h
    rw [← toNat_gray, grayTick, h]
    exact tickDone_addAcc _ d s

/-- Two Gray-coded ticks in a row output the codes of two neighbours, either of the new values or of the old ones. -/
theorem oneBitApart_grayTicks {d : Byte} (h : ∀ a, OneBitApart (gray a) (gray (a + d))) (s : State) :
    ∃ v w, (grayTick d s).out = some v ∧ (grayTick d (grayTick d s)).out = some w ∧ OneBitApart v w := by
  refine ⟨_, _, rfl, rfl, ?_⟩
  simp only [grayTick, completeTick_params, completeTick_ms, addAcc_acc]
  cases s.params.grayOrder with
  | updateThenOutput => exact h (s.ms.acc + d)
  | outputThenUpdate => exact h s.ms.acc

/-! ### Ticks in a row -/

/-- A tick operation does not look at PEND, and clears it (R81). -/
theorem exec_tick_setPend {i : Instr} (hi : i.format = .mode) (s : State) : exec i (setPend s) = exec i s := by
  cases i <;> simp only [Instr.format, reduceCtorEq] at hi
  case tickSnake =>
    have hr : snakeRule (setPend s) = snakeRule s := rfl
    rw [exec, execTickSnake, hr, exec, execTickSnake]
    cases snakeRule s <;> rfl
  case tickQueue =>
    have hr : queueRule (setPend s) = queueRule s := rfl
    rw [exec, execTickQueue, hr, exec, execTickQueue]
    cases queueRule s <;> rfl
  all_goals rfl

/-- From a quiet state the first of several expiries and the tick it causes take two steps, and leave the state of that
tick, quiet again, with the other expiries to come. -/
theorem afterTicks_succ {s t : State} (hs : s.Quiet) (h : service s = .next t) (n : Nat) :
    t.Quiet ∧ afterTicks (n + 1) s = afterTicks n t := by
  obtain ⟨h0, hf, ht, hp, hten⟩ := hs
  obtain ⟨i, hi, he⟩ := service_next h
  have hmode := format_of_decodeMode hi
  have hexpire : step (s.withExpiries (n + 1)) = .next (setPend (s.withExpiries n)) :=
    (step_deliver (s := s.withExpiries (n + 1)) h0 ht hf (serviceEnabled_eq_false (.inl hp)) rfl
      decodeEvent_expire).1
  have htick : step (setPend (s.withExpiries n)) = .next (t.withExpiries n) := by
    obtain ⟨hstep, -⟩ := step_tick (s := setPend (s.withExpiries n)) h0 ht hf rfl hten
    rw [hstep, service_of_decodeMode (s := setPend (s.withExpiries n)) hi, exec_tick_setPend hmode]
    exact exec_withScript _ he
  constructor
  · obtain ⟨r, rfl⟩ := exec_tick_next hmode he
    exact ⟨h0, hf, ht, rfl, hten⟩
  · rw [afterTicks, Nat.mul_succ, run_succ_of_next hexpire, run_succ_of_next htick, afterTicks]

/-- In the mode and the block of `s` every tick outputs `out` of ModeState and leaves `next` of it. -/
def State.TicksBy (out : ModeState → Byte) (next : ModeState → ModeState) (s : State) : Prop :=
  ∀ t : State, t.mode = s.mode → t.params = s.params → service t = .next (completeTick (out t.ms, next t.ms) t)

/-- `TicksBy` from the operation that MODE selects. -/
theorem ticksBy_of_decodeMode {out : ModeState → Byte} {next : ModeState → ModeState} {i : Instr} {s : State}
    (hi : decodeMode s.mode = .ok i)
    (h : ∀ t : State, t.params = s.params → exec i t = .next (completeTick (out t.ms, next t.ms) t)) :
    s.TicksBy out next := by
  intro t hmode hparams
  rw [← hmode] at hi
  exact (service_of_decodeMode hi).trans (h t hparams)

/-- n + 1 ticks in a row: ModeState is the (n+1)-st iterate, and OUT holds what the n-th one outputs. -/
theorem afterTicks_of_ticksBy {out : ModeState → Byte} {next : ModeState → ModeState} {s : State} (hs : s.Quiet)
    (h : s.TicksBy out next) (n : Nat) :
    ∃ t, afterTicks (n + 1) s = .next t ∧ t.mode = s.mode ∧ t.ms = next^[n + 1] s.ms ∧
      t.out = some (out (next^[n] s.ms)) := by
  induction n generalizing s with
  | zero =>
    obtain ⟨-, hrun⟩ := afterTicks_succ hs (h s rfl rfl) 0
    exact ⟨_, hrun, rfl, rfl, rfl⟩
  | succ n ih =>
    obtain ⟨hq, hrun⟩ := afterTicks_succ hs (h s rfl rfl) (n + 1)
    rw [hrun]
    exact ih hq h

theorem addAcc_addAcc (c d : Byte) (ms : ModeState) : (ms.addAcc c).addAcc d = ms.addAcc (c + d) := by
  rw [ModeState.addAcc, addAcc_acc, BitVec.add_assoc]
  rfl

/-- `d` added `n` times is `n * d` added once. -/
theorem iterate_addAcc (d : Byte) (n : Nat) (ms : ModeState) :
    (ModeState.addAcc d)^[n] ms = ms.addAcc (BitVec.ofNat 8 n * d) := by
  induction n with
  | zero => simp [ModeState.addAcc]
  | succ n ih =>
    have hmul : BitVec.ofNat 8 (n + 1) * d = BitVec.ofNat 8 n * d + d := by
      rw [BitVec.ofNat_add, BitVec.add_mul, BitVec.one_mul]
    rw [Function.iterate_succ_apply', ih, addAcc_addAcc, hmul]

/-- After 256 ticks ACC has made its turn (R105). -/
theorem iterate_addAcc_256 (d : Byte) (ms : ModeState) : (ModeState.addAcc d)^[256] ms = ms := by
  rw [iterate_addAcc]
  simp [ModeState.addAcc]

/-- A tick of mode 1 outputs ACC and adds 1 to it (R100). -/
theorem ticksBy_inc {s : State} (hm : s.mode = 1#8) : s.TicksBy ModeState.acc (ModeState.addAcc 1#8) :=
  ticksBy_of_decodeMode (hm ▸ decodeMode_inc) fun t _ => exec_tickInc t

/-- A tick of any of modes 1 to 4 adds a constant to ACC and writes no other register of ModeState (R100-R103). -/
theorem exists_ticksBy_addAcc {s : State} (h1 : 1 ≤ s.mode.toNat) (h4 : s.mode.toNat ≤ 4) :
    ∃ out d, s.TicksBy out (ModeState.addAcc d) := by
  have hm : s.mode = 1#8 ∨ s.mode = 2#8 ∨ s.mode = 3#8 ∨ s.mode = 4#8 := by
    simp only [← BitVec.toNat_inj, BitVec.toNat_ofNat]
    omega
  obtain hm | hm | hm | hm := hm
  · exact ⟨_, _, ticksBy_inc hm⟩
  · exact ⟨ModeState.acc, 255#8, ticksBy_of_decodeMode (hm ▸ decodeMode_dec) fun t _ => exec_tickDec t⟩
  · exact ⟨fun ms => grayOut s.params.grayOrder ms.acc (ms.acc + 1#8), 1#8,
      ticksBy_of_decodeMode (hm ▸ decodeMode_gray_up) fun t h => h ▸ exec_tickGrayUp t⟩
  · exact ⟨fun ms => grayOut s.params.grayOrder ms.acc (ms.acc + 255#8), 255#8,
      ticksBy_of_decodeMode (hm ▸ decodeMode_gray_down) fun t h => h ▸ exec_tickGrayDown t⟩

/-! ### The statements -/

/-- Settles O18: the second tick's output is the code of a neighbour of the first's argument. -/
theorem successiveGrayOutputsDifferInOneBit : Obligations.SuccessiveGrayOutputsDifferInOneBit := by
  intro i s hi
  obtain rfl | rfl := hi
  · obtain ⟨v, w, hv, hw, h⟩ := oneBitApart_grayTicks oneBitApart_gray_add_one s
    exact ⟨_, _, v, w, exec_tickGrayUp s, exec_tickGrayUp _, hv, hw, h⟩
  · obtain ⟨v, w, hv, hw, h⟩ := oneBitApart_grayTicks oneBitApart_gray_sub_one s
    exact ⟨_, _, v, w, exec_tickGrayDown s, exec_tickGrayDown _, hv, hw, h⟩

/-- Settles O28: n ticks in a row add n times the mode's constant to ACC. -/
theorem accumulatorModesCloseAfter256Ticks : Obligations.AccumulatorModesCloseAfter256Ticks := by
  intro s hs
  constructor
  · intro hm n
    have hm : s.mode = 1#8 := BitVec.eq_of_toNat_eq hm
    obtain ⟨t, hrun, -, -, hout⟩ := afterTicks_of_ticksBy hs (ticksBy_inc hm) n
    refine ⟨t, hrun, ?_⟩
    rw [hout, iterate_addAcc, addAcc_acc]
    simp
  · intro h1 h4
    obtain ⟨out, d, hticks⟩ := exists_ticksBy_addAcc h1 h4
    obtain ⟨t, hrun, hmode, hms, -⟩ := afterTicks_of_ticksBy hs hticks 255
    exact ⟨t, hrun, hms.trans (iterate_addAcc_256 d s.ms), hmode⟩

/-- Settles O13: the tick adds 1 to ACC and outputs the old value. -/
theorem tickIncOutputsThenIncrements : Obligations.TickIncOutputsThenIncrements :=
  ⟨decodeMode_inc, fun s => ⟨_, exec_tickInc s, BitVec.toNat_add s.ms.acc 1#8, tickDone_addAcc s.ms.acc 1#8 s⟩⟩

/-- Settles O14: the tick adds 255 to ACC and outputs the old value. -/
theorem tickDecOutputsThenDecrements : Obligations.TickDecOutputsThenDecrements :=
  ⟨decodeMode_dec, fun s => ⟨_, exec_tickDec s, BitVec.toNat_add s.ms.acc 255#8, tickDone_addAcc s.ms.acc 255#8 s⟩⟩

/-- Settles O15: `getLsbD_gray`, where bit 7 has no bit above it. -/
theorem grayCodeBits : Obligations.GrayCodeBits := by
  refine fun a => ⟨rfl, ?_, fun i _ => ?_⟩
  · rw [getLsbD_gray, BitVec.getLsbD_of_ge a 8 (Nat.le_refl 8), Bool.xor_false]
  · rw [getLsbD_gray, Bool.xor_comm]

/-- Settles O16: `grayTick` upwards, under either order. -/
theorem tickGrayUpOutputsTheOrderedCode : Obligations.TickGrayUpOutputsTheOrderedCode :=
  ⟨decodeMode_gray_up, fun s => ⟨grayTick 1#8 s, exec_tickGrayUp s, BitVec.toNat_add s.ms.acc 1#8,
    tickDone_grayTick 1#8 s⟩⟩

/-- Settles O17: `grayTick` downwards, under either order. -/
theorem tickGrayDownOutputsTheOrderedCode : Obligations.TickGrayDownOutputsTheOrderedCode :=
  ⟨decodeMode_gray_down, fun s => ⟨grayTick 255#8 s, exec_tickGrayDown s, BitVec.toNat_add s.ms.acc 255#8,
    tickDone_grayTick 255#8 s⟩⟩

end Sys2Proof.Machine
end

section
/-! Modes 5 and 6 (42_bcd_modes.md): the packed output, each update of the digit pair case by case, the updates as
counting modulo 100 on decimal digits, and ticks in a row; then the statements on the BCD modes. -/

namespace Sys2Proof.Machine

/-! ### The digit pair -/

/-- R124: the packed output as a number. -/
theorem toNat_bcd (t u : Nibble) : (bcd t u).toNat = 16 * t.toNat + u.toNat := by
  have hu : (u.setWidth 8).toNat = u.toNat := BitVec.toNat_setWidth_of_le (by decide)
  have ht : (t.setWidth 8 <<< 4).toNat = t.toNat <<< 4 := by
    simp only [BitVec.toNat_shiftLeft, BitVec.toNat_setWidth, Nat.shiftLeft_eq]
    omega
  rw [bcd, BitVec.toNat_or, ht, hu, ← Nat.shiftLeft_add_eq_or_of_lt u.isLt, Nat.shiftLeft_eq, Nat.mul_comm]

/-- R120 with the decimal carry. -/
theorem bcdUpDigits_carry {ms : ModeState} (h : ms.bcdU.toNat + 1 > 9) :
    (bcdUpDigits ms).bcdU.toNat = 0 ∧ (bcdUpDigits ms).bcdT.toNat = (ms.bcdT.toNat + 1) % 10 := by
  rw [bcdUpDigits, if_pos h]
  exact ⟨rfl, Nat.mod_eq_of_lt (by omega)⟩

/-- R120 without a carry. -/
theorem bcdUpDigits_noCarry {ms : ModeState} (h : ms.bcdU.toNat + 1 ≤ 9) :
    (bcdUpDigits ms).bcdU.toNat = ms.bcdU.toNat + 1 ∧ (bcdUpDigits ms).bcdT.toNat = ms.bcdT.toNat := by
  rw [bcdUpDigits, if_neg (Nat.not_lt.2 h)]
  exact ⟨Nat.mod_eq_of_lt (by omega), rfl⟩

/-- A digit that is not 0 is lowered without wrap. -/
theorem toNat_digit_sub_one {d : Nibble} (h : d.toNat ≠ 0) : (d - 1#4).toNat = d.toNat - 1 := by
  bv_omega

/-- The test for the digit 0, on its number. -/
theorem digit_beq_zero_iff (d : Nibble) : (d == 0#4) = true ↔ d.toNat = 0 := by
  rw [beq_iff_eq, ← BitVec.toNat_inj, BitVec.toNat_zero]

/-- R121 with the decimal borrow. -/
theorem bcdDownDigits_borrow {ms : ModeState} (h : ms.bcdU.toNat = 0) :
    (bcdDownDigits ms).bcdU.toNat = 9 ∧
      (bcdDownDigits ms).bcdT.toNat = if ms.bcdT.toNat = 0 then 9 else ms.bcdT.toNat - 1 := by
  rw [bcdDownDigits, if_pos ((digit_beq_zero_iff _).2 h)]
  refine ⟨rfl, ?_⟩
  simp only [digit_beq_zero_iff]
  split
  · rfl
  · exact toNat_digit_sub_one ‹_›

/-- R121 without a borrow. -/
theorem bcdDownDigits_noBorrow {ms : ModeState} (h : ms.bcdU.toNat ≠ 0) :
    (bcdDownDigits ms).bcdU.toNat = ms.bcdU.toNat - 1 ∧ (bcdDownDigits ms).bcdT.toNat = ms.bcdT.toNat := by
  rw [bcdDownDigits, if_neg (mt (digit_beq_zero_iff _).1 h)]
  exact ⟨toNat_digit_sub_one h, rfl⟩

/-- Writing the two digits writes no other register. -/
theorem read_withDigits {f : ModeField} (hf : f ∉ [ModeField.bcdU, .bcdT]) (u t : Nibble) (ms : ModeState) :
    ({ ms with bcdU := u, bcdT := t } : ModeState).read f = ms.read f := by
  cases f with
  | bcdU => simp at hf
  | bcdT => simp at hf
  | _ => rfl

theorem read_bcdUpDigits {f : ModeField} (hf : f ∉ [ModeField.bcdU, .bcdT]) (ms : ModeState) :
    (bcdUpDigits ms).read f = ms.read f := by
  simp only [bcdUpDigits]
  split
  all_goals exact read_withDigits hf _ _ ms

theorem read_bcdDownDigits {f : ModeField} (hf : f ∉ [ModeField.bcdU, .bcdT]) (ms : ModeState) :
    (bcdDownDigits ms).read f = ms.read f := by
  simp only [bcdDownDigits]
  split
  all_goals exact read_withDigits hf _ _ ms

/-! ### The ticks -/

/-- The packed output of the digits that ModeState holds. -/
def ModeState.packed (ms : ModeState) : Byte := bcd ms.bcdT ms.bcdU

theorem toNat_packed (ms : ModeState) : ms.packed.toNat = 16 * ms.bcdT.toNat + ms.bcdU.toNat :=
  toNat_bcd ms.bcdT ms.bcdU

/-- The tick whose update of the digits is `next`: mode 5 with `bcdUpDigits`, mode 6 with `bcdDownDigits`. -/
def bcdTick (next : ModeState → ModeState) (s : State) : State :=
  completeTick ((next s.ms).packed, next s.ms) s

theorem exec_tickBcdUp (s : State) : exec .tickBcdUp s = .next (bcdTick bcdUpDigits s) := rfl

theorem exec_tickBcdDown (s : State) : exec .tickBcdDown s = .next (bcdTick bcdDownDigits s) := rfl

/-- A tick that updates the digits and writes no other register outputs the new pair packed. -/
theorem tickDone_bcdTick {next : ModeState → ModeState} {s : State}
    (h : ∀ f, f ∉ [ModeField.bcdU, .bcdT] → (next s.ms).read f = s.ms.read f) :
    TickDone (16 * (bcdTick next s).ms.bcdT.toNat + (bcdTick next s).ms.bcdU.toNat) [.bcdU, .bcdT] s
      (bcdTick next s) := by
  rw [← toNat_packed]
  exact tickDone_completeTick h

/-! ### Counting modulo 100 -/

/-- Both digits are decimal (R122). -/
structure ModeState.Decimal (ms : ModeState) : Prop where
  units : ms.bcdU.toNat ≤ 9
  tens : ms.bcdT.toNat ≤ 9

/-- The digit pair read as a number. -/
def ModeState.pair (ms : ModeState) : Nat := 10 * ms.bcdT.toNat + ms.bcdU.toNat

/-- Decimal digits are determined by the number they write. -/
theorem ModeState.Decimal.digits_eq {a b : ModeState} (ha : a.Decimal) (hb : b.Decimal) (h : a.pair = b.pair) :
    a.bcdU = b.bcdU ∧ a.bcdT = b.bcdT := by
  obtain ⟨hau, hat⟩ := ha
  obtain ⟨hbu, hbt⟩ := hb
  simp only [ModeState.pair] at h
  simp only [← BitVec.toNat_inj]
  omega

/-- On decimal digits `next` adds `d` to the pair modulo 100, and leaves decimal digits. -/
def CountsBy (d : Nat) (next : ModeState → ModeState) : Prop :=
  ∀ ms : ModeState, ms.Decimal → (next ms).Decimal ∧ (next ms).pair = (ms.pair + d) % 100

/-- Mode 5 counts up: 9 units carry to the tens (R120). -/
theorem countsBy_bcdUpDigits : CountsBy 1 bcdUpDigits := by
  rintro ms ⟨hu, ht⟩
  obtain hc | hc := Nat.lt_or_ge 9 (ms.bcdU.toNat + 1)
  · obtain ⟨hu', ht'⟩ := bcdUpDigits_carry hc
    exact ⟨⟨by omega, by omega⟩, by simp only [ModeState.pair]; omega⟩
  · obtain ⟨hu', ht'⟩ := bcdUpDigits_noCarry hc
    exact ⟨⟨by omega, by omega⟩, by simp only [ModeState.pair]; omega⟩

/-- Mode 6 counts down, which modulo 100 adds 99: 0 units borrow from the tens (R121). -/
theorem countsBy_bcdDownDigits : CountsBy 99 bcdDownDigits := by
  rintro ms ⟨hu, ht⟩
  by_cases hb : ms.bcdU.toNat = 0
  · obtain ⟨hu', ht'⟩ := bcdDownDigits_borrow hb
    split at ht'
    all_goals exact ⟨⟨by omega, by omega⟩, by simp only [ModeState.pair]; omega⟩
  · obtain ⟨hu', ht'⟩ := bcdDownDigits_noBorrow hb
    exact ⟨⟨by omega, by omega⟩, by simp only [ModeState.pair]; omega⟩

theorem CountsBy.comp {c d : Nat} {f g : ModeState → ModeState} (hf : CountsBy c f) (hg : CountsBy d g) :
    CountsBy (c + d) (g ∘ f) := by
  intro ms hms
  obtain ⟨hdec, hpair⟩ := hf ms hms
  obtain ⟨hdec', hpair'⟩ := hg (f ms) hdec
  refine ⟨hdec', hpair'.trans ?_⟩
  rw [hpair, Nat.mod_add_mod, Nat.add_assoc]

theorem CountsBy.iterate {d : Nat} {next : ModeState → ModeState} (h : CountsBy d next) (n : Nat) :
    CountsBy (d * n) next^[n] := by
  induction n with
  | zero =>
    rintro ms ⟨hu, ht⟩
    exact ⟨⟨hu, ht⟩, (Nat.mod_eq_of_lt (by simp only [ModeState.pair, Function.iterate_zero, id]; omega)).symm⟩
  | succ n ih =>
    rw [Function.iterate_succ', Nat.mul_succ]
    exact ih.comp h

/-- Counting by 100 comes back to the same digits. -/
theorem CountsBy.digits_eq {f : ModeState → ModeState} (h : CountsBy 100 f) {ms : ModeState} (hms : ms.Decimal) :
    (f ms).bcdU = ms.bcdU ∧ (f ms).bcdT = ms.bcdT := by
  obtain ⟨hdec, hpair⟩ := h ms hms
  obtain ⟨hu, ht⟩ := hms
  exact hdec.digits_eq ⟨hu, ht⟩ (by simp only [ModeState.pair] at hpair ⊢; omega)

/-- A tick of mode 5 or 6 counts by some constant. -/
theorem exists_countsBy_of_exec {i : Instr} (hi : i = .tickBcdUp ∨ i = .tickBcdDown) :
    ∃ d next, CountsBy d next ∧ ∀ s, exec i s = .next (bcdTick next s) := by
  obtain rfl | rfl := hi
  · exact ⟨1, bcdUpDigits, countsBy_bcdUpDigits, exec_tickBcdUp⟩
  · exact ⟨99, bcdDownDigits, countsBy_bcdDownDigits, exec_tickBcdDown⟩

/-- Both nibbles of the packed output of decimal digits are decimal (R122). -/
theorem ModeState.Decimal.packed_nibbles {ms : ModeState} (h : ms.Decimal) :
    ms.packed.toNat / 16 ≤ 9 ∧ ms.packed.toNat % 16 ≤ 9 := by
  obtain ⟨hu, ht⟩ := h
  rw [toNat_packed]
  omega

/-- Ticks in a row under the reference schedule, each counting by `d`: the pair has moved by `d * n`, and OUT is the
pair reached, packed. -/
theorem afterTicks_of_countsBy {d n : Nat} {next : ModeState → ModeState} {i : Instr} {s : State} (hs : s.Quiet)
    (hms : s.ms.Decimal) (hi : decodeMode s.mode = .ok i) (he : ∀ t, exec i t = .next (bcdTick next t))
    (hc : CountsBy d next) (hn : 0 < n) :
    ∃ t, afterTicks n s = .next t ∧
      10 * t.ms.bcdT.toNat + t.ms.bcdU.toNat = (10 * s.ms.bcdT.toNat + s.ms.bcdU.toNat + d * n) % 100 ∧
      t.ms.bcdU.toNat ≤ 9 ∧ t.out.map BitVec.toNat = some (16 * t.ms.bcdT.toNat + t.ms.bcdU.toNat) := by
  obtain ⟨k, rfl⟩ := Nat.exists_eq_add_of_le' hn
  have hticks : s.TicksBy (fun ms => (next ms).packed) next := ticksBy_of_decodeMode hi fun t _ => he t
  obtain ⟨t, hrun, -, hreached, hout⟩ := afterTicks_of_ticksBy hs hticks k
  rw [← Function.iterate_succ_apply' next, ← hreached] at hout
  obtain ⟨hdec, hpair⟩ := hc.iterate (k + 1) s.ms hms
  rw [← hreached] at hdec hpair
  exact ⟨t, hrun, hpair, hdec.units, by rw [hout, Option.map_some, toNat_packed]⟩

/-! ### The statements -/

/-- Settles O29: the n-th iterate of the update counts by n times 1, or n times 99. -/
theorem bcdModesCountModulo100 : Obligations.BcdModesCountModulo100 := by
  intro s hs hu ht n hn
  constructor
  · intro hm
    have hm : s.mode = 5#8 := BitVec.eq_of_toNat_eq hm
    simpa only [Nat.one_mul] using
      afterTicks_of_countsBy hs ⟨hu, ht⟩ (hm ▸ decodeMode_bcd_up) exec_tickBcdUp countsBy_bcdUpDigits hn
  · intro hm
    have hm : s.mode = 6#8 := BitVec.eq_of_toNat_eq hm
    exact afterTicks_of_countsBy hs ⟨hu, ht⟩ (hm ▸ decodeMode_bcd_down) exec_tickBcdDown countsBy_bcdDownDigits hn

/-- Settles O19: the two cases of `bcdUpDigits`, and the end of the tick. -/
theorem tickBcdUpAdvancesTheDigits : Obligations.TickBcdUpAdvancesTheDigits :=
  ⟨decodeMode_bcd_up, fun s => ⟨_, exec_tickBcdUp s, bcdUpDigits_carry, bcdUpDigits_noCarry,
    tickDone_bcdTick fun _ hf => read_bcdUpDigits hf s.ms⟩⟩

/-- Settles O20: the two cases of `bcdDownDigits`, and the end of the tick. -/
theorem tickBcdDownLowersTheDigits : Obligations.TickBcdDownLowersTheDigits :=
  ⟨decodeMode_bcd_down, fun s => ⟨_, exec_tickBcdDown s, bcdDownDigits_borrow, bcdDownDigits_noBorrow,
    tickDone_bcdTick fun _ hf => read_bcdDownDigits hf s.ms⟩⟩

/-- Settles O21: either update counts on decimal digits, and OUT packs the digits it leaves. -/
theorem bcdTicksKeepDecimalDigits : Obligations.BcdTicksKeepDecimalDigits := by
  intro i s hi hu ht
  obtain ⟨d, next, hc, he⟩ := exists_countsBy_of_exec hi
  obtain ⟨hdec, -⟩ := hc s.ms ⟨hu, ht⟩
  exact ⟨_, _, he s, hdec.units, hdec.tens, rfl, hdec.packed_nibbles⟩

/-- Settles O22: 1 and 99, in either order, count by 100. -/
theorem bcdUpAndDownAreInverse : Obligations.BcdUpAndDownAreInverse := by
  intro i j s hij hu ht
  obtain ⟨rfl, rfl⟩ | ⟨rfl, rfl⟩ := hij
  · exact ⟨_, _, exec_tickBcdUp s, exec_tickBcdDown _,
      (countsBy_bcdUpDigits.comp countsBy_bcdDownDigits).digits_eq ⟨hu, ht⟩⟩
  · exact ⟨_, _, exec_tickBcdDown s, exec_tickBcdUp _,
      (countsBy_bcdDownDigits.comp countsBy_bcdUpDigits).digits_eq ⟨hu, ht⟩⟩

end Sys2Proof.Machine
end

section
/-! Modes 7 and 8 (43_table_modes.md): what the two have in common, by table, said for both at once: one tick, then
ticks in a row under the reference schedule (30_encoding.md R71); then the statements on the table modes. -/

namespace Sys2Proof.Machine

/-! ### The mode that plays a table -/

/-- The number of entries (R41, R42). -/
def Rom.size : Rom → Nat
  | .snakeRom => Config.nSnake
  | .queueRom => Config.nQueue

/-- The operation that plays the table (R140, R141). -/
def Rom.tick : Rom → Instr
  | .snakeRom => .tickSnake
  | .queueRom => .tickQueue

/-- The register through which the table is played. -/
def Rom.index : Rom → ModeField
  | .snakeRom => .snakeIdx
  | .queueRom => .queueIdx

/-- ModeState with the table's index advanced, as its tick leaves it (R140, R141). -/
def ModeState.advanceIndex (space : Rom) (ms : ModeState) : ModeState :=
  match space with
  | .snakeRom => { ms with snakeIdx := BitVec.ofNat 4 (nextIndex Config.nSnake ms.snakeIdx.toNat) }
  | .queueRom => { ms with queueIdx := BitVec.ofNat 6 (nextIndex Config.nQueue ms.queueIdx.toNat) }

/-- Within the table there is an entry to read (R41, R42). -/
theorem exists_memRead_ok {space : Rom} {i : Nat} (h : i < space.size) (s : State) :
    ∃ v, memRead space i s = .ok v := by
  cases space with
  | snakeRom => exact ⟨_, (memRead_snakeRom i s).trans (dif_pos h)⟩
  | queueRom => exact ⟨_, (memRead_queueRom i s).trans (dif_pos h)⟩

/-- Beyond the table a read faults (R43). -/
theorem memRead_beyond {space : Rom} {i : Nat} (h : space.size ≤ i) (s : State) :
    memRead space i s = .error (.indexOutOfRange space i) := by
  cases space with
  | snakeRom => exact (memRead_snakeRom i s).trans (dif_neg (Nat.not_lt.2 h))
  | queueRom => exact (memRead_queueRom i s).trans (dif_neg (Nat.not_lt.2 h))

/-- The wrap at the table's end is counting modulo its size. -/
theorem nextIndex_eq_mod {n i : Nat} (h : i < n) : nextIndex n i = (i + 1) % n := by
  rw [nextIndex]
  split
  · rw [‹i + 1 = n›, Nat.mod_self]
  · exact (Nat.mod_eq_of_lt (by omega)).symm

/-- The advanced index: it stays within the table, so the width of its register cuts nothing off. -/
theorem read_advanceIndex_self {space : Rom} {ms : ModeState} (h : ms.read space.index < space.size) :
    (ms.advanceIndex space).read space.index = nextIndex space.size (ms.read space.index) := by
  have hlt : nextIndex space.size (ms.read space.index) < space.size :=
    nextIndex_eq_mod h ▸ Nat.mod_lt _ (Nat.zero_lt_of_lt h)
  cases space with
  | snakeRom => exact Nat.mod_eq_of_lt (hlt.trans (by decide))
  | queueRom => exact Nat.mod_eq_of_lt (hlt.trans (by decide))

/-- The advance writes no other register. -/
theorem read_advanceIndex_of_ne {space : Rom} {ms : ModeState} {f : ModeField} (h : f ≠ space.index) :
    (ms.advanceIndex space).read f = ms.read f := by
  cases space with
  | snakeRom =>
    cases f with
    | snakeIdx => exact absurd rfl h
    | _ => rfl
  | queueRom =>
    cases f with
    | queueIdx => exact absurd rfl h
    | _ => rfl

/-! ### One tick -/

/-- The tick of a table: the read of the current entry decides; what it finds is output, and the index advances. -/
theorem exec_romTick (space : Rom) (s : State) :
    exec space.tick s =
      tableTick ((memRead space (s.ms.read space.index) s).map (·, s.ms.advanceIndex space)) s := by
  cases space with
  | snakeRom =>
    rw [Rom.tick, exec, execTickSnake, snakeRule, Rom.index, ModeState.read]
    cases memRead .snakeRom s.ms.snakeIdx.toNat s <;> rfl
  | queueRom =>
    rw [Rom.tick, exec, execTickQueue, queueRule, Rom.index, ModeState.read]
    cases memRead .queueRom s.ms.queueIdx.toNat s <;> rfl

/-- The tick of a table that finds an entry completes. -/
theorem exec_romTick_of_memRead {space : Rom} {s : State} {v : Byte}
    (h : memRead space (s.ms.read space.index) s = .ok v) :
    exec space.tick s = .next (completeTick (v, s.ms.advanceIndex space) s) := by
  rw [exec_romTick, h]
  rfl

/-- R140, R141 with the index within the table. -/
theorem exec_romTick_plays {space : Rom} {s : State} (h : s.ms.read space.index < space.size) :
    ∃ t v, exec space.tick s = .next t ∧ memRead space (s.ms.read space.index) s = .ok v ∧
      t.ms.read space.index = nextIndex space.size (s.ms.read space.index) ∧
      TickDone v.toNat [space.index] s t := by
  obtain ⟨v, hv⟩ := exists_memRead_ok h s
  exact ⟨_, v, exec_romTick_of_memRead hv, hv, read_advanceIndex_self h,
    tickDone_completeTick fun _ hf => read_advanceIndex_of_ne (List.ne_of_not_mem_cons hf)⟩

/-- R140, R141 with the index beyond the table. -/
theorem exec_romTick_beyond {space : Rom} {s : State} (h : space.size ≤ s.ms.read space.index) :
    exec space.tick s = .fault (.raised (.indexOutOfRange space (s.ms.read space.index))) := by
  rw [exec_romTick, memRead_beyond h]
  rfl

/-! ### Ticks in a row -/

/-- From any index within the table, the (n+1)-st tick in a row outputs the entry `n` places on, around the table:
each tick is one place, and no tick writes the table. -/
theorem afterTicks_plays {space : Rom} {s : State} (hs : s.Quiet) (hm : decodeMode s.mode = .ok space.tick)
    (h : s.ms.read space.index < space.size) (n : Nat) :
    ∃ t v, afterTicks (n + 1) s = .next t ∧
      memRead space ((s.ms.read space.index + n) % space.size) s = .ok v ∧ t.out = some v := by
  induction n generalizing s with
  | zero =>
    obtain ⟨v, hv⟩ := exists_memRead_ok h s
    obtain ⟨-, hrun⟩ := afterTicks_succ hs ((service_of_decodeMode hm).trans (exec_romTick_of_memRead hv)) 0
    exact ⟨_, v, hrun, by rwa [Nat.add_zero, Nat.mod_eq_of_lt h], rfl⟩
  | succ n ih =>
    obtain ⟨v, hv⟩ := exists_memRead_ok h s
    obtain ⟨hq, hrun⟩ :=
      afterTicks_succ hs ((service_of_decodeMode hm).trans (exec_romTick_of_memRead hv)) (n + 1)
    have hidx : (s.ms.advanceIndex space).read space.index = (s.ms.read space.index + 1) % space.size :=
      (read_advanceIndex_self h).trans (nextIndex_eq_mod h)
    have hlt : (s.ms.advanceIndex space).read space.index < space.size :=
      hidx ▸ Nat.mod_lt _ (Nat.zero_lt_of_lt h)
    obtain ⟨t, w, ht, hw, hout⟩ := ih hq hm hlt
    refine ⟨t, w, hrun.trans ht, ?_, hout⟩
    rw [completeTick_ms, hidx, Nat.mod_add_mod, memRead_congr rfl rfl] at hw
    rwa [Nat.add_comm n 1, ← Nat.add_assoc]

/-- From index 0 the outputs of ticks in a row are the table, over and over. -/
theorem afterTicks_repeats {space : Rom} {s : State} (hs : s.Quiet) (hm : decodeMode s.mode = .ok space.tick)
    (h : s.ms.read space.index = 0) (n : Nat) :
    ∃ t v, afterTicks (n + 1) s = .next t ∧ memRead space (n % space.size) s = .ok v ∧ t.out = some v := by
  have hpos : 0 < space.size := by cases space <;> decide
  simpa only [h, Nat.zero_add] using afterTicks_plays hs hm (h ▸ hpos) n

/-! ### The statements -/

/-- Settles O30: `afterTicks_repeats` for either table. -/
theorem tableModesRepeatTheirTable : Obligations.TableModesRepeatTheirTable := by
  intro s n hs
  constructor
  · intro hm h
    have hm : s.mode = 7#8 := BitVec.eq_of_toNat_eq hm
    exact afterTicks_repeats (space := .snakeRom) hs (hm ▸ decodeMode_snake) h n
  · intro hm h
    have hm : s.mode = 8#8 := BitVec.eq_of_toNat_eq hm
    exact afterTicks_repeats (space := .queueRom) hs (hm ▸ decodeMode_queue) h n

/-- Settles O24: the tick of the snake table, within the table and beyond it. -/
theorem tickSnakePlaysTheTable : Obligations.TickSnakePlaysTheTable :=
  ⟨decodeMode_snake, fun _ => ⟨fun h => exec_romTick_plays (space := .snakeRom) (Nat.lt_succ_of_le h),
    fun h => exec_romTick_beyond (space := .snakeRom) h⟩⟩

/-- Settles O25: the tick of the queue table, within the table and beyond it. -/
theorem tickQueuePlaysTheTable : Obligations.TickQueuePlaysTheTable :=
  ⟨decodeMode_queue, fun _ => ⟨fun h => exec_romTick_plays (space := .queueRom) (Nat.lt_succ_of_le h),
    fun h => exec_romTick_beyond (space := .queueRom) h⟩⟩

end Sys2Proof.Machine
end

section
/-! Mode 9 (44_lfsr_mode.md): the update of the register as arithmetic, its state graph, the orbit of the seed, and
ticks in a row under the reference schedule (30_encoding.md R71); then the statements on the LFSR mode. -/

namespace Sys2Proof.Machine

/-! ### The update -/

theorem toNat_bool_xor (a b : Bool) : (a ^^ b).toNat = (a.toNat + b.toNat) % 2 := by
  cases a <;> cases b <;> rfl

/-- The feedback bit is the parity of the register's quotients by 32 and by 16. -/
theorem toNat_feedback (l : Word6) :
    (l.getLsbD 5 ^^ l.getLsbD 4).toNat = (l.toNat / 32 + l.toNat / 16) % 2 := by
  have hbit (i : Nat) : (l.getLsbD i).toNat = l.toNat / 2 ^ i % 2 := Nat.toNat_testBit l.toNat i
  rw [toNat_bool_xor, hbit, hbit, ← Nat.add_mod]
  rfl

/-- R160 in arithmetic. -/
theorem toNat_lfsrNext (l : Word6) :
    (lfsrNext l).toNat = l.toNat / 2 + 32 * ((l.toNat / 32 + l.toNat / 16) % 2) := by
  have hmask : (0b111111#6 : Word6) = BitVec.allOnes 6 := rfl
  have hhigh (b : Bool) : ((BitVec.ofBool b).setWidth 6 <<< 5).toNat = b.toNat <<< 5 := by cases b <;> rfl
  have hlow : l.toNat >>> 1 < 2 ^ 5 := by rw [Nat.shiftRight_eq_div_pow]; omega
  rw [lfsrNext, hmask, BitVec.and_allOnes, BitVec.toNat_or, BitVec.toNat_ushiftRight, hhigh, Nat.or_comm,
    ← Nat.shiftLeft_add_eq_or_of_lt hlow, toNat_feedback, Nat.shiftLeft_eq, Nat.shiftRight_eq_div_pow]
  omega

/-- The update forgets bit 0 and nothing else: the new bit 5 depends on bits that the shift keeps. -/
theorem lfsrNext_eq_iff {x z : Word6} : lfsrNext z = lfsrNext x ↔ z.toNat / 2 = x.toNat / 2 := by
  rw [← BitVec.toNat_inj, toNat_lfsrNext, toNat_lfsrNext]
  omega

/-- The two values before `lfsrNext x` are `x` and its neighbour that differs in bit 0 (R162). -/
theorem lfsrNext_two_to_one (x : Word6) :
    ∃ u v : Word6, u ≠ v ∧ ∀ z, lfsrNext z = lfsrNext x ↔ z = u ∨ z = v := by
  refine ⟨BitVec.ofNat 6 (2 * (x.toNat / 2)), BitVec.ofNat 6 (2 * (x.toNat / 2) + 1), ?_, fun z => ?_⟩
  · rw [Ne, ← BitVec.toNat_inj, BitVec.toNat_ofNat, BitVec.toNat_ofNat]
    omega
  · rw [lfsrNext_eq_iff, ← BitVec.toNat_inj, ← BitVec.toNat_inj, BitVec.toNat_ofNat, BitVec.toNat_ofNat]
    omega

/-! ### The state graph -/

/-- Each new bit is the exclusive or of the two before it, so four updates leave what bits 5 and 4 determine: 0 if both
are 0, and otherwise a value of the 3-cycle (R162). -/
theorem iterate_four_lfsrNext : ∀ x : Word6,
    (x.toNat ≤ 15 ∧ lfsrNext^[4] x = 0#6) ∨
    (16 ≤ x.toNat ∧ (lfsrNext^[4] x = 27#6 ∨ lfsrNext^[4] x = 45#6 ∨ lfsrNext^[4] x = 54#6)) := by decide +kernel

theorem exists_iterate_eq_zero {x : Word6} (hx : x.toNat ≤ 15) : ∃ n, n ≤ 4 ∧ lfsrNext^[n] x = 0#6 := by
  obtain ⟨-, h⟩ | ⟨h, -⟩ := iterate_four_lfsrNext x
  · exact ⟨4, le_rfl, h⟩
  · omega

/-- Four updates reach the 3-cycle, and at most two more its value 27. -/
theorem exists_iterate_eq_27 {x : Word6} (hx : 16 ≤ x.toNat) : ∃ n, lfsrNext^[n] x = 27#6 := by
  obtain ⟨h, -⟩ | ⟨-, h | h | h⟩ := iterate_four_lfsrNext x
  · omega
  · exact ⟨4, h⟩
  · exact ⟨2 + 4, by rw [Function.iterate_add_apply, h]; rfl⟩
  · exact ⟨1 + 4, by rw [Function.iterate_add_apply, h]; rfl⟩

/-- A value that `n` updates bring back is brought back by `4 * n` too, so it is one that four updates reach. -/
theorem exists_iterate_four_of_cyclic {x : Word6} {n : Nat} (hn : 0 < n) (h : lfsrNext^[n] x = x) :
    ∃ y, lfsrNext^[4] y = x := by
  obtain ⟨k, rfl⟩ := Nat.exists_eq_add_of_le' hn
  refine ⟨lfsrNext^[4 * k] x, ?_⟩
  rw [← Function.iterate_add_apply, Nat.add_comm, ← Nat.mul_succ]
  exact Function.IsPeriodicPt.const_mul h 4

/-- Only values that four updates reach lie on a cycle (R162). -/
theorem eq_of_cyclic {x : Word6} {n : Nat} (hn : 0 < n) (h : lfsrNext^[n] x = x) :
    x = 0#6 ∨ x = 27#6 ∨ x = 45#6 ∨ x = 54#6 := by
  obtain ⟨y, rfl⟩ := exists_iterate_four_of_cyclic hn h
  obtain ⟨-, h⟩ | ⟨-, h⟩ := iterate_four_lfsrNext y
  · exact .inl h
  · exact .inr h

/-- The 3-cycle (R161, R162). -/
theorem isPeriodicPt_lfsrNext : Function.IsPeriodicPt lfsrNext 3 27#6 := rfl

/-- The orbit of the seed (R161): three values of the transient, then the 3-cycle. -/
theorem toNat_iterate_seed : ∀ n : Nat, (lfsrNext^[n + 1] Config.lfsrSeed).toNat =
    if n = 0 then 28 else if n = 1 then 46 else if n = 2 then 55
    else if n % 3 = 0 then 27 else if n % 3 = 1 then 45 else 54
  | 0 | 1 | 2 => rfl
  | k + 3 => by
    have henter : lfsrNext^[4] Config.lfsrSeed = 27#6 := rfl
    have hcycle : lfsrNext^[k + 3 + 1] Config.lfsrSeed = lfsrNext^[k % 3] 27#6 := by
      rw [Nat.add_assoc, Function.iterate_add_apply, henter, isPeriodicPt_lfsrNext.iterate_mod_apply]
    have hk : k % 3 = 0 ∨ k % 3 = 1 ∨ k % 3 = 2 := by omega
    rw [hcycle, Nat.add_mod_right]
    obtain h | h | h := hk <;> rw [h] <;> rfl

/-! ### The tick -/

theorem lfsrRule_lfsr (ms : ModeState) : (lfsrRule ms).2.lfsr = lfsrNext ms.lfsr := rfl

/-- The output is the updated register with zeros above (R160). -/
theorem toNat_lfsrRule_out (ms : ModeState) : (lfsrRule ms).1.toNat = (lfsrRule ms).2.lfsr.toNat :=
  BitVec.toNat_setWidth_of_le (by decide)

theorem read_lfsrRule_of_ne {f : ModeField} (h : f ≠ .lfsr) (ms : ModeState) : (lfsrRule ms).2.read f = ms.read f := by
  cases f with
  | lfsr => exact absurd rfl h
  | _ => rfl

theorem exec_tickLfsr (s : State) : exec .tickLfsr s = .next (completeTick (lfsrRule s.ms) s) := rfl

/-- The register after `n` ticks has been updated `n` times. -/
theorem iterate_lfsrRule_lfsr (n : Nat) (ms : ModeState) :
    ((fun ms => (lfsrRule ms).2)^[n] ms).lfsr = lfsrNext^[n] ms.lfsr :=
  Function.Semiconj.iterate_right (f := ModeState.lfsr) lfsrRule_lfsr n ms

/-- n + 1 ticks of mode 9 in a row: LFSR is the (n+1)-st iterate of the update, and OUT equals it. -/
theorem afterTicks_lfsr {s : State} (hs : s.Quiet) (hm : s.mode = 9#8) (n : Nat) :
    ∃ t, afterTicks (n + 1) s = .next t ∧ t.ms.lfsr = lfsrNext^[n + 1] s.ms.lfsr ∧
      t.out.map BitVec.toNat = some t.ms.lfsr.toNat := by
  have hticks : s.TicksBy (fun ms => (lfsrRule ms).1) (fun ms => (lfsrRule ms).2) :=
    ticksBy_of_decodeMode (hm ▸ decodeMode_lfsr) fun t _ => exec_tickLfsr t
  obtain ⟨t, hrun, -, hms, hout⟩ := afterTicks_of_ticksBy hs hticks n
  refine ⟨t, hrun, by rw [hms, iterate_lfsrRule_lfsr], ?_⟩
  rw [hout, Option.map_some, toNat_lfsrRule_out, hms, Function.iterate_succ_apply']

/-! ### The statements -/

/-- Settles O26: the update in arithmetic, and the end of the tick. -/
theorem tickLfsrShiftsAndOutputs : Obligations.TickLfsrShiftsAndOutputs := by
  refine ⟨decodeMode_lfsr, fun s => ⟨_, exec_tickLfsr s, toNat_lfsrNext s.ms.lfsr, ?_⟩⟩
  rw [completeTick_ms, ← toNat_lfsrRule_out]
  exact tickDone_completeTick fun _ hf => read_lfsrRule_of_ne (List.ne_of_not_mem_cons hf) s.ms

/-- Settles O27: an update forgets bit 0, and four updates from anywhere end on a cycle; the number of values reached
is counted. -/
theorem lfsrStateGraph : Obligations.LfsrStateGraph := by
  refine ⟨?_, ?_, fun _ => exists_iterate_eq_zero, fun _ => exists_iterate_eq_27, rfl, ⟨rfl, rfl, rfl⟩,
    fun _ _ => eq_of_cyclic⟩
  · rintro _ ⟨x, rfl⟩
    exact lfsrNext_two_to_one x
  · decide +kernel

/-- Settles O31: ticks in a row follow the orbit of the seed. -/
theorem lfsrOrbitFromTheSeed : Obligations.LfsrOrbitFromTheSeed := by
  intro s hs hm hl n
  have hm : s.mode = 9#8 := BitVec.eq_of_toNat_eq hm
  have hl : s.ms.lfsr = Config.lfsrSeed := BitVec.eq_of_toNat_eq hl
  obtain ⟨t, hrun, hlfsr, hout⟩ := afterTicks_lfsr hs hm n
  exact ⟨t, hrun, hout, by rw [hlfsr, hl, toNat_iterate_seed]⟩

end Sys2Proof.Machine
end

section
/-! ResetStates (45_reset_states.md): in one step, as the startup call and inside a poll that shows a press, with the
first tick after it; in the split form, one equation per step of the foreground's operation on its turn
(46_mode_selector.md R197); then the statements on both. -/

namespace Sys2Proof.Machine

/-! ### The startup call -/

theorem exec_resetStates_of_oneStep {s : State} (hp : s.params.atomicModeChange = true) :
    exec .resetStates s = .next (resetAll s) :=
  congrArg _ (if_pos hp)

theorem exec_resetStates_of_split {s : State} (hp : s.params.atomicModeChange = false) :
    exec .resetStates s = .next { s with fore := some startupOperation } :=
  congrArg _ (if_neg (ne_true_of_eq_false hp))

/-- The six fields of R180 are all there are. -/
theorem mem_resetFields (f : ModeField) : f ∈ resetFields := by
  cases f <;> decide

/-! ### The first tick after a one-step change of mode -/

/-- A one-step poll that shows a press leaves ModeState reset, whichever the buttons, and a legal MODE legal (R193,
R194). -/
theorem exec_poll_of_press {a b : Bool} {s t : State} (hp : s.params.atomicModeChange = true)
    (hm : legalMode s.mode = true) (hpress : s.edgeA a = true ∨ s.edgeB b = true)
    (h : exec (.poll a b) s = .next t) : legalMode t.mode = true ∧ t.ms = ModeState.initial := by
  rw [execPoll_next h, if_pos hp, pollReaction]
  cases hA : s.edgeA a <;> cases hB : s.edgeB b
  · simp [hA, hB] at hpress
  · exact ⟨legalMode_prevMode hm, rfl⟩
  · exact ⟨legalMode_nextMode hm, rfl⟩
  · exact ⟨legalMode_prevMode (legalMode_nextMode hm), rfl⟩

/-- The first tick from the reset ModeState, in a mode that reads no table: the output is what its rule makes of the
initial registers. -/
theorem service_out_of_initial {t : State} {i : Instr} {r : ModeState → Byte × ModeState} {v : Byte}
    (hi : decodeMode t.mode = .ok i) (hms : t.ms = ModeState.initial)
    (he : exec i t = .next (completeTick (r t.ms) t)) (hv : (r ModeState.initial).1 = v) :
    ∃ u, service t = .next u ∧ u.out = some v :=
  ⟨_, (service_of_decodeMode hi).trans he, by rw [completeTick_out, hms, hv]⟩

/-- The first tick from the reset ModeState, in a mode that plays a table: the output is entry 0 (R140, R141). -/
theorem service_out_of_initial_table {t : State} {space : Rom} (hi : decodeMode t.mode = .ok space.tick)
    (hms : t.ms = ModeState.initial) :
    ∃ u v, service t = .next u ∧ u.out = some v ∧ memRead space 0 t = .ok v := by
  have hidx : t.ms.read space.index = 0 := by rw [hms]; cases space <;> rfl
  have hpos : 0 < space.size := by cases space <;> decide
  obtain ⟨v, hv⟩ := exists_memRead_ok hpos t
  exact ⟨_, v, (service_of_decodeMode hi).trans (exec_romTick_of_memRead (hidx ▸ hv)), rfl, hv⟩

/-- R102 from ACC = 0. -/
theorem grayUpRule_initial_out (order : GrayOrder) :
    (grayUpRule order ModeState.initial).1 = if order = .updateThenOutput then 0x01#8 else 0x00#8 := by
  cases order <;> rfl

/-- R103 from ACC = 0. -/
theorem grayDownRule_initial_out (order : GrayOrder) :
    (grayDownRule order ModeState.initial).1 = if order = .updateThenOutput then 0x80#8 else 0x00#8 := by
  cases order <;> rfl

/-! ### The split operation on its turn -/

/-- The foreground's turn with an operation in progress: its next step is done in the state without the turn, or, where
that step is not enabled, nothing more than the turn is consumed. -/
theorem step_foreground_turn {s : State} {f : ModeField} {op : Foreground} {ts : List Turn}
    (h0 : s.stopped = false) (ht : s.turns = .foreground f :: ts) (ho : s.fore = some op) :
    step s = (foregroundStep f op { s with turns := ts }).getD (.next { s with turns := ts }) := by
  have ha : turnAction (.foreground f) { s with turns := ts } = (.foreground f op, { s with turns := ts }) := by
    simp only [turnAction, ho]
  rw [step_of_not_stopped h0, nextAction_of_turn ht, ha, perform]

/-- A field still to reset is reset (R181). -/
theorem foregroundStep_of_mem {f : ModeField} {op : Foreground} (h : f ∈ op.resetLeft) (s : State) :
    foregroundStep f op s = some (.next
      (holdForeground { op with resetLeft := op.resetLeft.erase f } { s with ms := s.ms.resetField f })) := by
  rw [foregroundStep, if_pos (List.ne_nil_of_mem h), if_pos h]

/-- While a reset is under way, the write of a field already reset is not enabled. -/
theorem foregroundStep_of_not_mem {f : ModeField} {op : Foreground} (hne : op.resetLeft ≠ []) (h : f ∉ op.resetLeft)
    (s : State) : foregroundStep f op s = none := by
  rw [foregroundStep, if_pos hne, if_neg h]

/-- With no reset under way, the press of A is applied first. -/
theorem foregroundStep_of_pressA {op : Foreground} (hr : op.resetLeft = []) (hA : op.pressA = true) (f : ModeField)
    (s : State) : foregroundStep f op s = some (pressStep (nextMode s.mode) { op with pressA := false } s) := by
  rw [foregroundStep, if_neg (not_not.2 hr), if_pos hA]

/-- Then the press of B. -/
theorem foregroundStep_of_pressB {op : Foreground} (hr : op.resetLeft = []) (hA : op.pressA = false)
    (hB : op.pressB = true) (f : ModeField) (s : State) :
    foregroundStep f op s = some (pressStep (prevMode s.mode) { op with pressB := false } s) := by
  rw [foregroundStep, if_neg (not_not.2 hr), if_neg (ne_true_of_eq_false hA), if_pos hB]

/-- With no press left, the levels are written (R196). -/
theorem foregroundStep_of_levels {op : Foreground} {a b : Bool} (hr : op.resetLeft = []) (hA : op.pressA = false)
    (hB : op.pressB = false) (hl : op.levels = some (a, b)) (f : ModeField) (s : State) :
    foregroundStep f op s = some (.next (holdForeground { op with levels := none } (rememberLevels a b s))) := by
  rw [foregroundStep, if_neg (not_not.2 hr), if_neg (ne_true_of_eq_false hA), if_neg (ne_true_of_eq_false hB), hl]

/-- The step that writes MODE faults when MODE is no mode (R193, R194). -/
theorem pressStep_of_illegalMode {s : State} (hm : ¬legalMode s.mode = true) (m : Byte) (op : Foreground) :
    pressStep m op s = raise (.modeOutOfRange s.mode) :=
  if_neg hm

theorem Foreground.done_iff (op : Foreground) :
    op.done = true ↔ op.levels = none ∧ op.pressA = false ∧ op.pressB = false ∧ op.resetLeft = [] := by
  simp [Foreground.done, and_assoc]

/-- An operation with nothing left frees the foreground (R200). -/
theorem holdForeground_of_done {op : Foreground} (h : op.done = true) (s : State) :
    holdForeground op s = { s with fore := none } := by
  rw [holdForeground, if_pos h]

/-- An operation with something left stays in progress. -/
theorem holdForeground_of_not_done {op : Foreground} (h : ¬op.done = true) (s : State) :
    holdForeground op s = { s with fore := some op } := by
  rw [holdForeground, if_neg h]

/-- From a legal MODE the step that writes MODE writes it, and begins a reset of all six fields (R197). -/
theorem pressStep_begins_reset {s : State} (hm : legalMode s.mode = true) (m : Byte) (op : Foreground) :
    pressStep m op s = .next { s with mode := m, fore := some { op with resetLeft := resetFields } } := by
  have hleft : ¬({ op with resetLeft := resetFields } : Foreground).done = true := fun h =>
    have ⟨_, _, _, hr⟩ := (Foreground.done_iff _).1 h
    List.cons_ne_nil _ _ hr
  rw [pressStep_of_legalMode hm, holdForeground_of_not_done hleft]
  rfl

/-- What is in progress after the write of `f`: the same operation with one field less to reset. -/
theorem remains_after_reset {f : ModeField} {op op' : Foreground} {s : State} (hd : op.resetLeft.Nodup)
    (h : (holdForeground { op with resetLeft := op.resetLeft.erase f } s).fore = some op') :
    op'.levels = op.levels ∧ op'.pressA = op.pressA ∧ op'.pressB = op.pressB ∧
      op'.resetLeft.Nodup ∧ ∀ g, g ∈ op'.resetLeft ↔ g ∈ op.resetLeft ∧ g ≠ f := by
  rw [holdForeground_fore, Option.ite_none_left_eq_some, Option.some_inj] at h
  obtain ⟨-, rfl⟩ := h
  exact ⟨rfl, rfl, rfl, hd.erase f, fun _ => hd.mem_erase_iff.trans and_comm⟩

/-- The write of `f` frees the foreground exactly when it was all that was left. -/
theorem free_after_reset_iff {f : ModeField} {op : Foreground} (hf : f ∈ op.resetLeft) (s : State) :
    (holdForeground { op with resetLeft := op.resetLeft.erase f } s).fore = none ↔
      op.levels = none ∧ op.pressA = false ∧ op.pressB = false ∧ op.resetLeft = [f] := by
  have hlast : op.resetLeft.erase f = [] ↔ op.resetLeft = [f] := by
    rw [List.erase_eq_nil_iff, or_iff_right (List.ne_nil_of_mem hf)]
  simp [Foreground.done_iff, hlast]

/-! ### The statements -/

/-- Settles O43: after the press ModeState is the initial one, so each mode's tick outputs what its rule makes of
that. -/
theorem firstOutputAfterAModeChange : Obligations.FirstOutputAfterAModeChange := by
  intro s t a b hp h1 h9 hpress h
  obtain ⟨hlegal, hms⟩ := exec_poll_of_press hp ((legalMode_iff _).2 ⟨h1, h9⟩) hpress h
  obtain ⟨hsnake, hqueue, hparams, -⟩ := exec_keeps h
  obtain hm | hm | hm | hm | hm | hm | hm | hm | hm := mode_cases ((legalMode_iff _).1 hlegal)
  · obtain ⟨u, hu, hout⟩ := service_out_of_initial (r := incRule) (hm ▸ decodeMode_inc) hms rfl rfl
    exact ⟨u, 0x00#8, hu, hout, by simp [hm]⟩
  · obtain ⟨u, hu, hout⟩ := service_out_of_initial (r := decRule) (hm ▸ decodeMode_dec) hms rfl rfl
    exact ⟨u, 0x00#8, hu, hout, by simp [hm]⟩
  · obtain ⟨u, hu, hout⟩ := service_out_of_initial (hm ▸ decodeMode_gray_up) hms rfl (grayUpRule_initial_out _)
    exact ⟨u, _, hu, hout, by simp [hm, hparams]⟩
  · obtain ⟨u, hu, hout⟩ := service_out_of_initial (hm ▸ decodeMode_gray_down) hms rfl (grayDownRule_initial_out _)
    exact ⟨u, _, hu, hout, by simp [hm, hparams]⟩
  · obtain ⟨u, hu, hout⟩ := service_out_of_initial (r := bcdUpRule) (hm ▸ decodeMode_bcd_up) hms rfl rfl
    exact ⟨u, 0x01#8, hu, hout, by simp [hm]⟩
  · obtain ⟨u, hu, hout⟩ := service_out_of_initial (r := bcdDownRule) (hm ▸ decodeMode_bcd_down) hms rfl rfl
    exact ⟨u, 0x99#8, hu, hout, by simp [hm]⟩
  · obtain ⟨u, v, hu, hout, hv⟩ := service_out_of_initial_table (space := .snakeRom) (hm ▸ decodeMode_snake) hms
    rw [memRead_congr hsnake hqueue] at hv
    exact ⟨u, v, hu, hout, by simp [hm, hv]⟩
  · obtain ⟨u, v, hu, hout, hv⟩ := service_out_of_initial_table (space := .queueRom) (hm ▸ decodeMode_queue) hms
    rw [memRead_congr hsnake hqueue] at hv
    exact ⟨u, v, hu, hout, by simp [hm, hv]⟩
  · obtain ⟨u, hu, hout⟩ := service_out_of_initial (r := lfsrRule) (hm ▸ decodeMode_lfsr) hms rfl rfl
    exact ⟨u, 0x1C#8, hu, hout, by simp [hm]⟩

/-- Settles O44: on the foreground's turn, each clause is one equation of `foregroundStep`. -/
theorem splitReactionTakesItsStepsInOrder : Obligations.SplitReactionTakesItsStepsInOrder := by
  intro s op f ts h0 ho hd ht
  have hstep := step_foreground_turn h0 ht ho
  have hlegal (h1 : 1 ≤ s.mode.toNat) (h9 : s.mode.toNat ≤ 9) : legalMode s.mode = true :=
    (legalMode_iff _).2 ⟨h1, h9⟩
  refine ⟨fun hf => ?_, fun hne hf => ?_, fun h1 h9 hr hA => ?_, fun h1 h9 hr hA hB => ?_, fun hm hr hpress => ?_,
    fun a b hr hA hB hl => ?_⟩
  · rw [foregroundStep_of_mem hf] at hstep
    exact ⟨_, _, hstep, read_resetField_self f s.ms, fun _ hg => read_resetField_of_ne hg s.ms,
      fun _ => remains_after_reset (s := s) hd, free_after_reset_iff hf s⟩
  · rwa [foregroundStep_of_not_mem hne hf] at hstep
  · have hm := hlegal h1 h9
    rw [foregroundStep_of_pressA hr hA] at hstep
    exact ⟨_, by rw [nextMode_toNat hm]; split <;> omega,
      hstep.trans (pressStep_begins_reset (s := { s with turns := ts }) hm _ _)⟩
  · have hm := hlegal h1 h9
    rw [foregroundStep_of_pressB hr hA hB] at hstep
    exact ⟨_, by rw [prevMode_toNat hm]; split <;> omega,
      hstep.trans (pressStep_begins_reset (s := { s with turns := ts }) hm _ _)⟩
  · have hillegal : ¬legalMode s.mode = true := by rw [legalMode_iff]; omega
    cases hA : op.pressA with
    | true =>
      rw [foregroundStep_of_pressA hr hA] at hstep
      exact hstep.trans (pressStep_of_illegalMode (s := { s with turns := ts }) hillegal _ _)
    | false =>
      rw [foregroundStep_of_pressB hr hA (hpress.resolve_left (ne_true_of_eq_false hA))] at hstep
      exact hstep.trans (pressStep_of_illegalMode (s := { s with turns := ts }) hillegal _ _)
  · have hdone := (Foreground.done_iff { op with levels := none }).2 ⟨rfl, hA, hB, hr⟩
    rwa [foregroundStep_of_levels hr hA hB hl, Option.getD_some, holdForeground_of_done hdone] at hstep

/-- Settles O35: the one-step form writes the reset values over ModeState and nothing else. -/
theorem resetStatesWritesTheSixFields : Obligations.ResetStatesWritesTheSixFields :=
  ⟨decodeEvent_resetStates, fun s hp => ⟨resetAll s, exec_resetStates_of_oneStep hp, rfl, rfl, rfl, rfl, rfl, rfl, rfl,
    rfl, rfl, rfl, rfl, rfl, rfl, ⟨rfl, memRead_congr rfl rfl⟩, rfl, rfl, rfl⟩⟩

/-- Settles O36: a reset ModeState is reset to itself. -/
theorem resetStatesIsIdempotent : Obligations.ResetStatesIsIdempotent := fun s hp =>
  ⟨resetAll s, exec_resetStates_of_oneStep hp, exec_resetStates_of_oneStep (s := resetAll s) hp⟩

/-- Settles O37: the startup call in progress is `startupOperation`. -/
theorem splitResetStatesStartsTheSixSteps : Obligations.SplitResetStatesStartsTheSixSteps := fun _ hp =>
  ⟨startupOperation, exec_resetStates_of_split hp, rfl, rfl, rfl, resetFields_nodup, mem_resetFields⟩

end Sys2Proof.Machine
end

section
/-! The mode selector (46_mode_selector.md): what a poll does in one step and in the split form, the waiting of the
foreground events, and polls and presses in a row; then the statements on these. -/

namespace Sys2Proof.Machine

/-! ### Presses and the one-step reaction -/

/-- R192 for button A. -/
theorem edgeA_iff (s : State) (a : Bool) : s.edgeA a = true ↔ s.prevA = true ∧ a = false := by
  simp [State.edgeA, pressed]

/-- R192 for button B. -/
theorem edgeB_iff (s : State) (b : Bool) : s.edgeB b = true ↔ s.prevB = true ∧ b = false := by
  simp [State.edgeB, pressed]

/-- A high level shows no press. -/
theorem edgeA_of_high (s : State) : s.edgeA true = false := by
  simp [State.edgeA, pressed]

theorem edgeB_of_high (s : State) : s.edgeB true = false := by
  simp [State.edgeB, pressed]

/-- After a low level there is no press. -/
theorem edgeA_of_prev_low {s : State} (h : s.prevA = false) (a : Bool) : s.edgeA a = false := by
  simp [State.edgeA, pressed, h]

theorem edgeB_of_prev_low {s : State} (h : s.prevB = false) (b : Bool) : s.edgeB b = false := by
  simp [State.edgeB, pressed, h]

/-- `nextMode_toNat` in the words of R193. -/
theorem toNat_nextMode_wraps {m : Byte} (h : legalMode m = true) :
    (nextMode m).toNat = if m.toNat = 9 then 1 else m.toNat + 1 := by
  have := (legalMode_iff m).1 h
  rw [nextMode_toNat h]
  split <;> omega

/-- `prevMode_toNat` in the words of R194. -/
theorem toNat_prevMode_wraps {m : Byte} (h : legalMode m = true) :
    (prevMode m).toNat = if m.toNat = 1 then 9 else m.toNat - 1 := by
  have := (legalMode_iff m).1 h
  rw [prevMode_toNat h]
  split <;> omega

/-- A step forward and a step back cancel (R195). -/
theorem prevMode_nextMode {m : Byte} (h : legalMode m = true) : prevMode (nextMode m) = m := by
  apply BitVec.eq_of_toNat_eq
  rw [prevMode_toNat (legalMode_nextMode h), nextMode_toNat h]
  have := (legalMode_iff m).1 h
  omega

/-- Nine steps forward lead once round the modes. -/
theorem iterate_nine_nextMode {m : Byte} (h : legalMode m = true) : nextMode^[9] m = m := by
  obtain rfl | rfl | rfl | rfl | rfl | rfl | rfl | rfl | rfl := mode_cases ((legalMode_iff m).1 h) <;> rfl

/-- So do nine steps back. -/
theorem iterate_nine_prevMode {m : Byte} (h : legalMode m = true) : prevMode^[9] m = m := by
  obtain rfl | rfl | rfl | rfl | rfl | rfl | rfl | rfl | rfl := mode_cases ((legalMode_iff m).1 h) <;> rfl

section
variable {a b : Bool} {s : State}

theorem pollReaction_of_no_press (hA : s.edgeA a = false) (hB : s.edgeB b = false) :
    pollReaction a b s = rememberLevels a b s := by
  simp [pollReaction, hA, hB]

theorem pollReaction_of_pressA (hA : s.edgeA a = true) (hB : s.edgeB b = false) :
    pollReaction a b s = rememberLevels a b (modeNext s) := by
  simp [pollReaction, hA, hB]

theorem pollReaction_of_pressB (hA : s.edgeA a = false) (hB : s.edgeB b = true) :
    pollReaction a b s = rememberLevels a b (modePrev s) := by
  simp [pollReaction, hA, hB]

/-- R195: both presses leave MODE, and ModeState is reset. -/
theorem pollReaction_of_both_presses (hm : legalMode s.mode = true) (hA : s.edgeA a = true) (hB : s.edgeB b = true) :
    pollReaction a b s = rememberLevels a b (resetAll s) := by
  have hmode : prevMode (modeNext s).mode = s.mode := prevMode_nextMode hm
  simp only [pollReaction, hA, hB, if_true, modePrev, hmode]
  rfl

/-- A one-step poll remembers its levels and touches nothing outside the poll agent's registers (R190, R196). -/
theorem pollReaction_frame (a b : Bool) (s : State) :
    (pollReaction a b s).prevA = a ∧ (pollReaction a b s).prevB = b ∧ (pollReaction a b s).fore = s.fore ∧
      PollFrame s (pollReaction a b s) := by
  obtain ⟨m, ms, e, -⟩ := pollReaction_writes a b s
  rw [e]
  exact ⟨rfl, rfl, rfl, rfl, rfl, rfl, ⟨rfl, memRead_congr rfl rfl⟩, rfl, rfl, rfl⟩

/-- In one step a poll completes if MODE is legal or no press shows (R190). -/
theorem exec_poll_of_oneStep (hp : s.params.atomicModeChange = true)
    (h : legalMode s.mode = true ∨ s.edgeA a = false ∧ s.edgeB b = false) :
    exec (.poll a b) s = .next (pollReaction a b s) := by
  have hf : pollFaults a b s = false := by
    obtain hm | ⟨hA, hB⟩ := h
    · simp [pollFaults, hm]
    · simp [pollFaults, hA, hB]
  simp [exec, execPoll, hf, hp]

/-- In one step a press with an illegal MODE faults (R193, R194). -/
theorem exec_poll_of_illegalMode (hp : s.params.atomicModeChange = true) (hm : legalMode s.mode = false)
    (h : s.edgeA a = true ∨ s.edgeB b = true) : exec (.poll a b) s = raise (.modeOutOfRange s.mode) := by
  have hf : pollFaults a b s = true := by simp [pollFaults, hm, hp, h]
  simp [exec, execPoll, hf]

/-- In the split form a poll only starts its operation, whatever MODE holds (R197). -/
theorem exec_poll_of_split (hp : s.params.atomicModeChange = false) :
    exec (.poll a b) s = .next { s with fore := some (pollOperation a b s) } := by
  simp [exec, execPoll, pollFaults, hp]

end

/-! ### The waiting of the foreground events -/

/-- On its turn the environment does not deliver an event that has to wait (R200). -/
theorem turnAction_environment_waits {s : State} {w : Byte} {ws : List Byte} {i : Instr} (hw : s.script = w :: ws)
    (hi : decodeEvent w = .ok i) (he : eventEnabled i s = false) : turnAction .environment s = (.idle, s) := by
  simp [turnAction, environmentTurn, hw, hi, he]

/-- The environment's turn, its next word an event that has to wait: the turn is consumed and the word stays. -/
theorem step_environment_turn_waits {s : State} {w : Byte} {ws : List Byte} {ts : List Turn} {i : Instr}
    (h0 : s.stopped = false) (ht : s.turns = .environment :: ts) (hw : s.script = w :: ws)
    (hi : decodeEvent w = .ok i) (he : eventEnabled i s = false) : step s = .next { s with turns := ts } := by
  have ha : turnAction .environment { s with turns := ts } = (.idle, { s with turns := ts }) :=
    turnAction_environment_waits hw hi he
  rw [step_of_not_stopped h0, nextAction_of_turn ht, ha, perform]

/-! ### Polls in a row, in one step each -/

/-- From a quiet state the next poll of the script is delivered and done. -/
theorem step_poll {a b : Bool} {s : State} (hs : s.Quiet) (hp : s.params.atomicModeChange = true)
    (h : legalMode s.mode = true ∨ s.edgeA a = false ∧ s.edgeB b = false) (ws : List Byte) :
    step { s with script := encode (.poll a b) :: ws } = .next { pollReaction a b s with script := ws } := by
  obtain ⟨h0, hf, ht, hpend, -⟩ := hs
  obtain ⟨hstep, -⟩ := step_deliver (s := { s with script := encode (.poll a b) :: ws }) h0 ht hf
    (serviceEnabled_eq_false (.inl hpend)) rfl (decodeEvent_encode rfl)
  exact hstep.trans (exec_withScript (s := s) ws (exec_poll_of_oneStep hp h))

/-- So is a poll that shows no press, whatever MODE holds: it only remembers its levels (R196). -/
theorem step_poll_without_press {a b : Bool} {s : State} (hs : s.Quiet) (hp : s.params.atomicModeChange = true)
    (hA : s.edgeA a = false) (hB : s.edgeB b = false) (ws : List Byte) :
    step { s with script := encode (.poll a b) :: ws } = .next { rememberLevels a b s with script := ws } := by
  rw [← pollReaction_of_no_press hA hB]
  exact step_poll hs hp (.inr ⟨hA, hB⟩) ws

/-- A level polled again shows no press (R192). -/
theorem pressed_self (v : Bool) : pressed v v = false := by
  cases v <;> rfl

/-- Polls of the same levels, the first of which shows no press: none of the others does (R199). -/
theorem run_polls_without_press {a b : Bool} {s : State} (hs : s.Quiet) (hp : s.params.atomicModeChange = true)
    (hA : s.edgeA a = false) (hB : s.edgeB b = false) (n : Nat) :
    Sys2Proof.core.run (n + 1) { s with script := List.replicate (n + 1) (encode (.poll a b)) } =
      .next { rememberLevels a b s with script := [] } := by
  induction n generalizing s with
  | zero => exact run_succ_of_next (step_poll_without_press hs hp hA hB [])
  | succ n ih =>
    rw [List.replicate_succ, run_succ_of_next (step_poll_without_press hs hp hA hB _)]
    exact ih (s := rememberLevels a b s) hs hp (pressed_self a) (pressed_self b)

/-- The poll of levels `a`, `b`, with both levels high before it, shows one press, which steps MODE by `f`. -/
structure PressStepsBy (f : Byte → Byte) (a b : Bool) : Prop where
  legal : ∀ {m : Byte}, legalMode m = true → legalMode (f m) = true
  reaction : ∀ {s : State}, s.prevA = true → s.prevB = true →
    pollReaction a b s = rememberLevels a b (resetAll (writeMode (f s.mode) s))

theorem pressStepsBy_nextMode : PressStepsBy nextMode false true where
  legal := legalMode_nextMode
  reaction hA _ := pollReaction_of_pressA ((edgeA_iff _ _).2 ⟨hA, rfl⟩) (edgeB_of_high _)

theorem pressStepsBy_prevMode : PressStepsBy prevMode true false where
  legal := legalMode_prevMode
  reaction _ hB := pollReaction_of_pressB (edgeA_of_high _) ((edgeB_iff _ _).2 ⟨hB, rfl⟩)

/-- A press and its release, from a quiet state with both levels high: MODE is stepped and ModeState reset, and both
levels are high again. -/
theorem run_press_release {f : Byte → Byte} {a b : Bool} (hf : PressStepsBy f a b) {s : State} (hs : s.Quiet)
    (hp : s.params.atomicModeChange = true) (hA : s.prevA = true) (hB : s.prevB = true)
    (hm : legalMode s.mode = true) (k : Nat) (ws : List Byte) :
    Sys2Proof.core.run (k + 2) { s with script := encode (.poll a b) :: encode (.poll true true) :: ws } =
      Sys2Proof.core.run k { s with mode := f s.mode, ms := ModeState.initial, script := ws } := by
  have hpress := step_poll (a := a) (b := b) hs hp (.inl hm) (encode (.poll true true) :: ws)
  have hrelease := step_poll_without_press (s := rememberLevels a b (resetAll (writeMode (f s.mode) s))) (a := true)
    (b := true) hs hp (edgeA_of_high _) (edgeB_of_high _) ws
  rw [hf.reaction hA hB] at hpress
  rw [run_succ_of_next hpress, run_succ_of_next hrelease, hA, hB]
  rfl

/-- `n + 1` presses of one button, each with its release. -/
theorem run_presses {f : Byte → Byte} {a b : Bool} (hf : PressStepsBy f a b) {s : State} (hs : s.Quiet)
    (hp : s.params.atomicModeChange = true) (hA : s.prevA = true) (hB : s.prevB = true)
    (hm : legalMode s.mode = true) (n : Nat) :
    Sys2Proof.core.run (2 * (n + 1))
        { s with script := (List.replicate (n + 1) [encode (.poll a b), encode (.poll true true)]).flatten } =
      .next { s with mode := f^[n + 1] s.mode, ms := ModeState.initial, script := [] } := by
  induction n generalizing s with
  | zero => exact run_press_release hf hs hp hA hB hm 0 []
  | succ n ih =>
    rw [List.replicate_succ, List.flatten_cons, Nat.mul_succ]
    refine (run_press_release hf hs hp hA hB hm _ _).trans ?_
    exact ih (s := { s with mode := f s.mode, ms := ModeState.initial }) hs hp hA hB (hf.legal hm)

/-! ### The statements on the one-step form -/

/-- Settles O38: the reaction by the presses it shows; with an illegal MODE the fault. -/
theorem pollSelectsTheModeInOneStep : Obligations.PollSelectsTheModeInOneStep := by
  intro s a b hp
  simp only [← edgeA_iff, ← edgeB_iff, ← legalMode_iff]
  constructor
  · intro h
    have hexec := exec_poll_of_oneStep (a := a) (b := b) hp (h.imp_right (by simp))
    have hlegal (hpress : s.edgeA a = true ∨ s.edgeB b = true) : legalMode s.mode = true :=
      h.resolve_right (not_and_or.2 (hpress.imp not_not.2 not_not.2))
    refine ⟨_, hexec, ?_, ?_, ?_, ?_, ?_, pollReaction_frame a b s⟩
    · rintro ⟨hA, hB⟩
      rw [pollReaction_of_pressA hA (eq_false_of_ne_true hB)]
      exact toNat_nextMode_wraps (hlegal (.inl hA))
    · rintro ⟨hA, hB⟩
      rw [pollReaction_of_pressB (eq_false_of_ne_true hA) hB]
      exact toNat_prevMode_wraps (hlegal (.inr hB))
    · intro hAB
      by_cases hA : s.edgeA a = true
      · rw [pollReaction_of_both_presses (hlegal (.inl hA)) hA (hAB.1 hA)]
        rfl
      · rw [pollReaction_of_no_press (eq_false_of_ne_true hA) (eq_false_of_ne_true (mt hAB.2 hA))]
        rfl
    · intro hpress
      exact (exec_poll_of_press hp (hlegal hpress) hpress hexec).2
    · rintro ⟨hA, hB⟩
      rw [pollReaction_of_no_press (eq_false_of_ne_true hA) (eq_false_of_ne_true hB)]
      rfl
  · rintro ⟨hm, hpress⟩
    exact exec_poll_of_illegalMode hp (eq_false_of_ne_true hm) hpress

/-- Settles O41: nine steps forward, or back, lead once round the nine modes. -/
theorem ninePressesReturnToTheMode : Obligations.NinePressesReturnToTheMode := by
  intro s w hs hp hA hB h1 h9 hw
  have hm := (legalMode_iff _).2 ⟨h1, h9⟩
  obtain ⟨f, a, b, hf, hcycle, rfl⟩ :
      ∃ f a b, PressStepsBy f a b ∧ f^[9] s.mode = s.mode ∧ w = encode (.poll a b) := by
    obtain rfl | rfl := hw
    · exact ⟨_, _, _, pressStepsBy_nextMode, iterate_nine_nextMode hm, rfl⟩
    · exact ⟨_, _, _, pressStepsBy_prevMode, iterate_nine_prevMode hm, rfl⟩
  exact ⟨_, run_presses hf hs hp hA hB hm 8, hcycle, rfl⟩

/-- Settles O42: the poll of a button held low shows no press, however often it comes. -/
theorem heldButtonGivesNoFurtherPress : Obligations.HeldButtonGivesNoFurtherPress := by
  intro s n hs hp
  cases n with
  | zero => exact ⟨fun hA => ⟨_, rfl, rfl, rfl, hA⟩, fun hB => ⟨_, rfl, rfl, rfl, hB⟩⟩
  | succ n =>
    constructor
    · intro hA
      exact ⟨_, run_polls_without_press hs hp (edgeA_of_prev_low hA false) (edgeB_of_high s) n, rfl, rfl, rfl⟩
    · intro hB
      exact ⟨_, run_polls_without_press hs hp (edgeA_of_high s) (edgeB_of_prev_low hB false) n, rfl, rfl, rfl⟩

/-- Settles O10: with an operation in progress the foreground events are not enabled, the other two are. -/
theorem foregroundEventsWaitForTheForeground : Obligations.ForegroundEventsWaitForTheForeground := by
  intro s op w ws ts i h0 hf ht hw hi
  constructor
  · intro h
    have hfg : isForegroundEvent i = true := by obtain rfl | rfl | rfl | ⟨a, b, rfl⟩ := h <;> rfl
    exact step_environment_turn_waits h0 ht hw hi (by simp [eventEnabled, hfg, hf])
  · intro h
    have hfg : isForegroundEvent i = false := by obtain rfl | rfl := h <;> rfl
    exact step_environment_turn h0 ht hw hi ((eventEnabled_iff i s).2 (.inl hfg))

/-- Settles O39: the operation a split poll starts is `pollOperation`. -/
theorem splitPollHoldsItsLevelsAndPresses : Obligations.SplitPollHoldsItsLevelsAndPresses := fun s a b hp =>
  ⟨pollOperation a b s, exec_poll_of_split hp, rfl, edgeA_iff s a, edgeB_iff s b, rfl⟩

/-- Settles O40: `pollReaction_of_both_presses`. -/
theorem doublePressKeepsModeAndResets : Obligations.DoublePressKeepsModeAndResets := by
  intro s hp hA hB h1 h9
  have hm := (legalMode_iff _).2 ⟨h1, h9⟩
  rw [exec_poll_of_oneStep hp (.inl hm),
    pollReaction_of_both_presses hm ((edgeA_iff s _).2 ⟨hA, rfl⟩) ((edgeB_iff s _).2 ⟨hB, rfl⟩)]
  rfl

end Sys2Proof.Machine
end

section
/-! The split reaction that nothing interrupts (46_mode_selector.md R197): every step of the foreground leads to the
same finished state, in every order of the reset writes (45_reset_states.md R181), and each step leaves less to do; then
the statement on it. -/

namespace Sys2Proof.Machine

/-! ### The order of the reset writes -/

/-- The reset writes of the fields in `fs`, one after the other (R181). -/
def ModeState.resetEach (fs : List ModeField) (ms : ModeState) : ModeState :=
  fs.foldl (fun ms f => ms.resetField f) ms

theorem resetEach_nil (ms : ModeState) : ms.resetEach [] = ms := rfl

/-- The writes of all six fields are ResetStates (R180). -/
theorem resetEach_resetFields (ms : ModeState) : ms.resetEach resetFields = ModeState.initial := rfl

/-- Two reset writes commute. -/
theorem resetField_comm (f g : ModeField) (ms : ModeState) :
    (ms.resetField f).resetField g = (ms.resetField g).resetField f := by
  cases f <;> cases g <;> rfl

/-- The write of any field still to reset, and then of the others, is the write of them all. -/
theorem resetEach_erase {f : ModeField} {fs : List ModeField} (h : f ∈ fs) (ms : ModeState) :
    (ms.resetField f).resetEach (fs.erase f) = ms.resetEach fs :=
  ((List.perm_cons_erase h).foldl_eq' (fun _ _ _ _ ms => resetField_comm _ _ ms) ms).symm

/-! ### The finished state of an operation in progress -/

/-- MODE after the presses still to apply. -/
def Foreground.finalMode (op : Foreground) (m : Byte) : Byte :=
  let afterA := if op.pressA then nextMode m else m
  if op.pressB then prevMode afterA else afterA

/-- ModeState after the resets still to come: a press still to apply resets all of it, else the fields left are
reset. -/
def Foreground.finalModeState (op : Foreground) (ms : ModeState) : ModeState :=
  if op.pressA || op.pressB then ModeState.initial else ms.resetEach op.resetLeft

/-- The state that the remaining steps of `op` lead to, if nothing comes between them. -/
def Foreground.finish (op : Foreground) (s : State) : State :=
  { s with
    mode := op.finalMode s.mode, ms := op.finalModeState s.ms
    prevA := (op.levels.getD (s.prevA, s.prevB)).1, prevB := (op.levels.getD (s.prevA, s.prevB)).2
    fore := none }

/-- The state with the operation in progress, if there is one, finished. -/
def State.finished (s : State) : State :=
  match s.fore with
  | some op => op.finish s
  | none => s

theorem finished_of_fore_none {s : State} (h : s.fore = none) : s.finished = s := by
  simp only [State.finished, h]

theorem finished_of_fore_some {s : State} {op : Foreground} (h : s.fore = some op) : s.finished = op.finish s := by
  simp only [State.finished, h]

/-- The turns play no part in what an operation does. -/
theorem finished_withTurns (s : State) (ts : List Turn) :
    State.finished { s with turns := ts } = { s.finished with turns := ts } := by
  rcases s with ⟨_, _, _, _, _, _, _, _, _, _ | op, _⟩ <;> rfl

/-- What the operation that a split poll starts leads to is the one-step reaction (R190). -/
theorem finish_pollOperation (a b : Bool) {s : State} (hf : s.fore = none) :
    (pollOperation a b s).finish s = pollReaction a b s := by
  cases hA : s.edgeA a <;> cases hB : s.edgeB b <;>
    simp only [Foreground.finish, Foreground.finalMode, Foreground.finalModeState, pollOperation, pollReaction, hA, hB,
      ← hf] <;> rfl

/-- Putting back what remains of an operation, if anything does, changes nothing of what it leads to. -/
theorem finished_holdForeground (op : Foreground) (s : State) : (holdForeground op s).finished = op.finish s := by
  by_cases h : op.done = true
  · obtain ⟨hl, hA, hB, hr⟩ := (Foreground.done_iff op).1 h
    rw [holdForeground_of_done h, finished_of_fore_none rfl]
    simp [Foreground.finish, Foreground.finalMode, Foreground.finalModeState, hl, hA, hB, hr, resetEach_nil]
  · rw [holdForeground_of_not_done h, finished_of_fore_some rfl]
    rfl

/-! ### The steps of the operation -/

/-- Every step of the operation leads to the same finished state: this is R197's order of the steps, whatever field a
reset step writes. -/
theorem foregroundStep_finished {f : ModeField} {op : Foreground} {s t : State}
    (h : foregroundStep f op s = some (.next t)) : t.finished = op.finish s := by
  obtain ⟨hf, rfl⟩ | ⟨-, hA, hx⟩ | ⟨-, hA, hB, hx⟩ | ⟨hr, hA, hB, a, b, hl, rfl⟩ | ⟨-, -, -, -, rfl⟩ :=
    foregroundStep_next h
  · simp [finished_holdForeground, Foreground.finish, Foreground.finalMode, Foreground.finalModeState,
      resetEach_erase hf]
  · obtain ⟨-, rfl⟩ := pressStep_next hx
    simp [finished_holdForeground, Foreground.finish, Foreground.finalMode, Foreground.finalModeState, hA,
      resetEach_resetFields, writeMode]
  · obtain ⟨-, rfl⟩ := pressStep_next hx
    simp [finished_holdForeground, Foreground.finish, Foreground.finalMode, Foreground.finalModeState, hA, hB,
      resetEach_resetFields, writeMode]
  · simp [finished_holdForeground, Foreground.finish, Foreground.finalMode, Foreground.finalModeState, hr, hA, hB, hl,
      rememberLevels]
  · exact finished_holdForeground op s

/-- The foreground's turn with nothing in progress: the turn is consumed and nothing else is done. -/
theorem step_foreground_turn_passed {s : State} {f : ModeField} {ts : List Turn} (h0 : s.stopped = false)
    (ht : s.turns = .foreground f :: ts) (hf : s.fore = none) : step s = .next { s with turns := ts } := by
  have ha : turnAction (.foreground f) { s with turns := ts } = (.idle, { s with turns := ts }) := by
    simp only [turnAction, hf]
  rw [step_of_not_stopped h0, nextAction_of_turn ht, ha, perform]

/-- On its turn the foreground keeps the finished state, whether it has a step to take or not. -/
theorem step_foreground_turn_finished {s t : State} {f : ModeField} {ts : List Turn}
    (ht : s.turns = .foreground f :: ts) (h : step s = .next t) :
    t.finished = { s.finished with turns := ts } ∧ t.turns = ts := by
  obtain ⟨h0, -⟩ := step_next h
  cases hf : s.fore with
  | none =>
    obtain rfl := Host.Outcome.next.inj ((step_foreground_turn_passed h0 ht hf).symm.trans h)
    exact ⟨finished_withTurns s ts, rfl⟩
  | some op =>
    rw [step_foreground_turn h0 ht hf] at h
    cases hx : foregroundStep f op { s with turns := ts } with
    | none =>
      rw [hx] at h
      obtain rfl := Host.Outcome.next.inj h
      exact ⟨finished_withTurns s ts, rfl⟩
    | some r =>
      obtain rfl : r = .next t := by rwa [hx] at h
      obtain ⟨-, -, -, -, -, hturns, -⟩ := foregroundStep_keeps hx
      rw [foregroundStep_finished hx, finished_of_fore_some hf]
      exact ⟨rfl, hturns⟩

/-- Turns of the foreground alone, as many as the run takes, keep the finished state. -/
theorem run_foreground_turns_finished {k : Nat} {s t : State} (hk : k ≤ s.turns.length)
    (hturns : ∀ x ∈ s.turns, ∃ f, x = .foreground f) (h : Sys2Proof.core.run k s = .next t) :
    t.finished = { s.finished with turns := s.turns.drop k } := by
  induction k generalizing s with
  | zero =>
    obtain rfl := Host.Outcome.next.inj h
    exact finished_withTurns s s.turns
  | succ k ih =>
    obtain ⟨u, hstep, hrun⟩ := run_succ_next h
    cases hs : s.turns with
    | nil => simp [hs] at hk
    | cons x ts =>
      rw [hs] at hk hturns
      obtain ⟨⟨f, rfl⟩, hts⟩ := List.forall_mem_cons.1 hturns
      obtain ⟨hu, rfl⟩ := step_foreground_turn_finished hs hstep
      rw [ih (Nat.le_of_succ_le_succ hk) hts hrun, hu, List.drop_succ_cons]

/-! ### The end of the operation under the reference schedule -/

/-- A bound on the steps an operation still takes: its reset writes, seven for each press, and one that ends it. -/
def Foreground.stepsLeft (op : Foreground) : Nat :=
  op.resetLeft.length + 7 * op.pressA.toNat + 7 * op.pressB.toNat + 1

/-- The same for a state: no steps with the foreground free. -/
def State.stepsLeft (s : State) : Nat := (s.fore.map Foreground.stepsLeft).getD 0

/-- A poll has at most fifteen steps to take: two presses, and the levels. -/
theorem stepsLeft_pollOperation_le (a b : Bool) (s : State) : (pollOperation a b s).stepsLeft ≤ 15 := by
  have hA := (s.edgeA a).toNat_le
  have hB := (s.edgeB b).toNat_le
  simp only [Foreground.stepsLeft, pollOperation, List.length_nil]
  omega

theorem stepsLeft_holdForeground_le (op : Foreground) (s : State) :
    (holdForeground op s).stepsLeft ≤ op.stepsLeft := by
  rw [State.stepsLeft, holdForeground_fore]
  split
  · exact Nat.zero_le _
  · exact Nat.le_refl _

theorem stepsLeft_holdForeground_of_done {op : Foreground} (h : op.done = true) (s : State) :
    (holdForeground op s).stepsLeft = 0 := by
  rw [holdForeground_of_done h]
  rfl

/-- Every step of the operation leaves less to do. -/
theorem foregroundStep_stepsLeft {f : ModeField} {op : Foreground} {s t : State}
    (h : foregroundStep f op s = some (.next t)) : t.stepsLeft < op.stepsLeft := by
  obtain ⟨hf, rfl⟩ | ⟨hr, hA, hx⟩ | ⟨hr, hA, hB, hx⟩ | ⟨hr, hA, hB, a, b, hl, rfl⟩ | ⟨hr, hA, hB, hl, rfl⟩ :=
    foregroundStep_next h
  · refine (stepsLeft_holdForeground_le _ _).trans_lt ?_
    have hlen := List.length_erase_of_mem hf
    have hpos := List.length_pos_of_mem hf
    simp only [Foreground.stepsLeft]
    omega
  · obtain ⟨-, rfl⟩ := pressStep_next hx
    refine (stepsLeft_holdForeground_le _ _).trans_lt ?_
    simp [Foreground.stepsLeft, hA, hr, resetFields]
  · obtain ⟨-, rfl⟩ := pressStep_next hx
    refine (stepsLeft_holdForeground_le _ _).trans_lt ?_
    simp [Foreground.stepsLeft, hA, hB, hr, resetFields]
  · rw [stepsLeft_holdForeground_of_done ((Foreground.done_iff { op with levels := none }).2 ⟨rfl, hA, hB, hr⟩)]
    exact Nat.succ_pos _
  · rw [stepsLeft_holdForeground_of_done ((Foreground.done_iff _).2 ⟨hl, hA, hB, hr⟩)]
    exact Nat.succ_pos _

/-- Every step of the operation keeps a legal MODE legal (R193, R194). -/
theorem foregroundStep_legalMode {f : ModeField} {op : Foreground} {s t : State} (hm : legalMode s.mode = true)
    (h : foregroundStep f op s = some (.next t)) : legalMode t.mode = true := by
  obtain ⟨-, rfl⟩ | ⟨-, -, hx⟩ | ⟨-, -, -, hx⟩ | ⟨-, -, -, a, b, -, rfl⟩ | ⟨-, -, -, -, rfl⟩ := foregroundStep_next h
  · exact hm
  · obtain ⟨-, rfl⟩ := pressStep_next hx
    exact legalMode_nextMode hm
  · obtain ⟨-, rfl⟩ := pressStep_next hx
    exact legalMode_prevMode hm
  · exact hm
  · exact hm

/-- The reference schedule names a step that is enabled: the first field still to reset, if any is. -/
theorem foregroundStep_headD_ne_none (op : Foreground) (s : State) :
    foregroundStep (op.resetLeft.headD .acc) op s ≠ none := by
  cases hr : op.resetLeft with
  | cons f fs =>
    have hf : f ∈ op.resetLeft := by simp [hr]
    rw [List.headD_cons, foregroundStep_of_mem hf]
    exact Option.some_ne_none _
  | nil =>
    unfold foregroundStep
    rw [if_neg (not_not.2 hr)]
    split
    · exact Option.some_ne_none _
    · split
      · exact Option.some_ne_none _
      · split <;> exact Option.some_ne_none _

/-- Under the reference schedule an operation in progress always has a step, and from a legal MODE it completes. -/
theorem step_foreground_completes {s : State} {op : Foreground} (h0 : s.stopped = false) (ht : s.turns = [])
    (hf : s.fore = some op) (hm : legalMode s.mode = true) :
    ∃ t, step s = .next t ∧ foregroundStep (op.resetLeft.headD .acc) op s = some (.next t) := by
  obtain ⟨hstep, -⟩ := step_foreground h0 ht hf
  cases hx : foregroundStep (op.resetLeft.headD .acc) op s with
  | none => exact absurd hx (foregroundStep_headD_ne_none op s)
  | some r =>
    obtain ⟨t, rfl⟩ := foregroundStep_completes hm hx
    exact ⟨t, by rw [hstep, hx, Option.getD_some], rfl⟩

/-- With nothing to come and no tick pending, the reference schedule finishes the operation in progress, and then
stays. -/
theorem run_finishes {n : Nat} {s : State} (h0 : s.stopped = false) (ht : s.turns = []) (hw : s.script = [])
    (hp : s.pend = false) (hm : legalMode s.mode = true) (hn : s.stepsLeft ≤ n) :
    Sys2Proof.core.run n s = .next s.finished := by
  induction n generalizing s with
  | zero =>
    cases hf : s.fore with
    | none => rw [finished_of_fore_none hf]; rfl
    | some op => simp [State.stepsLeft, hf, Foreground.stepsLeft] at hn
  | succ n ih =>
    cases hf : s.fore with
    | none =>
      obtain ⟨hstep, -⟩ := step_idle h0 ht hf (serviceEnabled_eq_false (.inl hp)) hw
      rw [run_succ_of_next hstep]
      exact ih h0 ht hw hp hm (by simp [State.stepsLeft, hf])
    | some op =>
      obtain ⟨t, hstep, hx⟩ := step_foreground_completes h0 ht hf hm
      obtain ⟨-, -, -, hfault, hscript, hturns, hpend, -⟩ := foregroundStep_keeps hx
      have hlt : t.stepsLeft < s.stepsLeft := by
        simpa [State.stepsLeft, hf] using foregroundStep_stepsLeft hx
      rw [run_succ_of_next hstep, finished_of_fore_some hf, ← foregroundStep_finished hx]
      exact ih (by rwa [State.stopped, hfault]) (hturns.trans ht) (hscript.trans hw) (hpend.trans hp)
        (foregroundStep_legalMode hm hx) (by omega)

/-- Settles O45: the turns keep the finished state, which is the one-step reaction's; and a poll has at most fifteen
steps left when it starts. -/
theorem uninterruptedSplitPollEqualsOneStepPoll : Obligations.UninterruptedSplitPollEqualsOneStepPoll := by
  intro s a b h0 hf _ h1 h9 started
  have hfinished : started.finished = pollReaction a b s := finish_pollOperation a b hf
  refine ⟨fun k t hk hturns hrun ht => ?_, fun ht hw hp => ?_⟩
  · rw [← hfinished, ← finished_of_fore_none ht]
    exact run_foreground_turns_finished (s := started) hk hturns hrun
  · rw [← hfinished]
    exact run_finishes (s := started) h0 ht hw hp ((legalMode_iff _).2 ⟨h1, h9⟩) (stepsLeft_pollOperation_le a b s)

end Sys2Proof.Machine
end

section
/-! What runs from legal states come to (10_state.md R38, 70_reset_and_hazards.md R268, R270): every step completes
unless a reserved word is delivered; and the exact number of steps after which the reference schedule (30_encoding.md
R71) has freed the foreground; then the statements on these. -/

namespace Sys2Proof.Machine

/-! ### Runs from legal states -/

/-- A reserved word is delivered only from the script. -/
theorem nextAction_reserved {s : State} {w : Byte} (h : (nextAction s).1 = .reserved w) :
    w ∈ s.script ∧ ∃ e, decodeEvent w = .error e := by
  obtain ⟨turns, ⟨t, e⟩ | e⟩ := nextAction_cases s <;> rw [e] at h
  · obtain e | ⟨w', ws, e', hw, he, e⟩ | ⟨w', ws, i, -, -, -, e⟩ | ⟨-, e⟩ | ⟨f, op, -, e⟩ :=
      turnAction_cases t { s with turns := turns } <;> rw [e] at h <;> cases h
    have hw : s.script = w :: ws := hw
    exact ⟨hw ▸ List.mem_cons_self, e', he⟩
  · cases h

/-- From a state that meets the invariant an action other than the delivery of a reserved word completes. -/
theorem perform_of_inv {s : State} (hs : s.Inv) (hne : ∀ w, (nextAction s).1 ≠ .reserved w) :
    ∃ t, perform (nextAction s).1 (nextAction s).2 = .next t := by
  have hs' := nextAction_inv hs
  cases ha : (nextAction s).1 with
  | idle => exact ⟨_, rfl⟩
  | event i =>
    obtain ⟨t, ht, -⟩ := exec_event_of_inv (nextAction_event_format ha) hs'
    exact ⟨t, ht⟩
  | reserved w => exact absurd ha (hne w)
  | service =>
    obtain ⟨t, ht, -⟩ := service_of_inv hs'
    exact ⟨t, ht⟩
  | foreground f op =>
    simp only [perform]
    cases hx : foregroundStep f op (nextAction s).2 with
    | none => exact ⟨_, rfl⟩
    | some r => exact foregroundStep_completes hs'.legalMode hx

/-- The script holds event words only: no reserved word is to come (R67). -/
def State.OnlyEvents (s : State) : Prop := ∀ w ∈ s.script, ∃ i, decodeEvent w = .ok i

/-- From a state that meets the invariant, with no refusal on record and none to come, there is a next step. -/
theorem step_completes {s : State} (hs : s.Inv) (hr : s.fault.refused = false) (hw : s.OnlyEvents) :
    ∃ t, step s = .next t := by
  rw [step_of_not_stopped (hs.not_stopped hr)]
  refine perform_of_inv hs fun w ha => ?_
  obtain ⟨hmem, e, he⟩ := nextAction_reserved ha
  obtain ⟨i, hi⟩ := hw w hmem
  rw [he] at hi
  cases hi

/-- Every state of a run from a state that meets the invariant meets it. -/
theorem run_inv {k : Nat} {s u : State} (hs : s.Inv) (h : Sys2Proof.core.run k s = .next u) : u.Inv := by
  induction k generalizing s with
  | zero => exact Host.Outcome.next.inj h ▸ hs
  | succ k ih =>
    obtain ⟨t, hstep, hrun⟩ := run_succ_next h
    exact ih (everyStepKeepsTheInvariant.1 s t hs hstep) hrun

/-! ### Cutting runs -/

/-- A run that goes on from the end of another. -/
theorem run_add_of_next {m : Nat} {s t : State} (h : Sys2Proof.core.run m s = .next t) (n : Nat) :
    Sys2Proof.core.run (m + n) s = Sys2Proof.core.run n t := by
  rw [run_add, h]

/-- The ticks of a run that goes on from the end of another. -/
theorem ticksTaken_add {m : Nat} {s t : State} (h : Sys2Proof.core.run m s = .next t) (n : Nat) :
    ticksTaken (m + n) s = ticksTaken m s + ticksTaken n t := by
  induction m generalizing s with
  | zero =>
    obtain rfl := Host.Outcome.next.inj h
    rw [ticksTaken, Nat.zero_add, Nat.zero_add]
  | succ m ih =>
    obtain ⟨u, hstep, hrun⟩ := run_succ_next h
    rw [Nat.add_right_comm, ticksTaken_succ hstep, ticksTaken_succ hstep, ih hrun, Nat.add_assoc]

/-! ### The operation in progress under the reference schedule -/

/-- The steps that an operation still takes, exactly: its reset writes, seven for each press, and the write of its
levels if it has any. -/
def Foreground.stepCount (op : Foreground) : Nat :=
  op.resetLeft.length + 7 * op.pressA.toNat + 7 * op.pressB.toNat + op.levels.isSome.toNat

/-- The steps until the foreground is free: none if it is. -/
def State.stepsToFree (s : State) : Nat := (s.fore.map Foreground.stepCount).getD 0

/-- An operation in progress has something left to do, as every operation that the machine puts back has. -/
def State.ForegroundBusy (s : State) : Prop := ∀ op, s.fore = some op → op.done = false

theorem stepCount_eq_zero_iff (op : Foreground) : op.stepCount = 0 ↔ op.done = true := by
  cases hl : op.levels <;> cases hA : op.pressA <;> cases hB : op.pressB <;>
    simp [Foreground.stepCount, Foreground.done_iff, hl, hA, hB]

/-- What is put back has as many steps to go as the operation has. -/
theorem stepsToFree_holdForeground (op : Foreground) (s : State) :
    (holdForeground op s).stepsToFree = op.stepCount := by
  rw [State.stepsToFree, holdForeground_fore]
  split
  · exact ((stepCount_eq_zero_iff op).2 ‹_›).symm
  · rfl

/-- What is put back of an operation is that operation, if anything of it is left. -/
theorem holdForeground_fore_eq_some {op q : Foreground} {s : State} (h : (holdForeground op s).fore = some q) :
    op.done = false ∧ q = op := by
  rw [holdForeground_fore, Option.ite_none_left_eq_some, Option.some_inj] at h
  obtain ⟨hne, rfl⟩ := h
  exact ⟨eq_false_of_ne_true hne, rfl⟩

theorem foregroundBusy_holdForeground (op : Foreground) (s : State) : (holdForeground op s).ForegroundBusy := by
  intro q hq
  obtain ⟨hdone, rfl⟩ := holdForeground_fore_eq_some hq
  exact hdone

theorem length_resetFields : resetFields.length = 6 := rfl

/-- Every step of an operation with something left puts back an operation with one step less to take. -/
theorem foregroundStep_stepCount {f : ModeField} {op : Foreground} {s t : State} (hop : op.done = false)
    (h : foregroundStep f op s = some (.next t)) :
    ∃ q u, t = holdForeground q u ∧ q.stepCount + 1 = op.stepCount := by
  obtain ⟨hf, rfl⟩ | ⟨hr, hA, hx⟩ | ⟨hr, hA, hB, hx⟩ | ⟨hr, hA, hB, a, b, hl, rfl⟩ | ⟨hr, hA, hB, hl, -⟩ :=
    foregroundStep_next h
  · refine ⟨_, _, rfl, ?_⟩
    have hlen := List.length_erase_of_mem hf
    have hpos := List.length_pos_of_mem hf
    simp only [Foreground.stepCount]
    omega
  · obtain ⟨-, rfl⟩ := pressStep_next hx
    refine ⟨_, _, rfl, ?_⟩
    simp only [Foreground.stepCount, hr, hA, length_resetFields, List.length_nil, Bool.toNat_false, Bool.toNat_true]
    omega
  · obtain ⟨-, rfl⟩ := pressStep_next hx
    refine ⟨_, _, rfl, ?_⟩
    simp only [Foreground.stepCount, hr, hA, hB, length_resetFields, List.length_nil, Bool.toNat_false,
      Bool.toNat_true]
    omega
  · exact ⟨_, _, rfl, by simp [Foreground.stepCount, hr, hA, hB, hl]⟩
  · have hdone := (Foreground.done_iff op).2 ⟨hl, hA, hB, hr⟩
    rw [hop] at hdone
    cases hdone

/-- The reference schedule finishes the operation in progress before anything else: after exactly the steps counted the
foreground is free, and no tick has been taken. -/
theorem run_stepsToFree {n : Nat} {s : State} (h0 : s.stopped = false) (ht : s.turns = [])
    (hm : legalMode s.mode = true) (hbusy : s.ForegroundBusy) (hn : s.stepsToFree = n) :
    Sys2Proof.core.run n s = .next s.finished ∧ ticksTaken n s = 0 := by
  induction n generalizing s with
  | zero =>
    cases hf : s.fore with
    | none => exact ⟨by rw [finished_of_fore_none hf]; rfl, rfl⟩
    | some op =>
      rw [State.stepsToFree, hf] at hn
      have hdone := (stepCount_eq_zero_iff op).1 hn
      rw [hbusy op hf] at hdone
      cases hdone
  | succ n ih =>
    cases hf : s.fore with
    | none => simp [State.stepsToFree, hf] at hn
    | some op =>
      obtain ⟨t, hstep, hx⟩ := step_foreground_completes h0 ht hf hm
      obtain ⟨-, ha⟩ := step_foreground h0 ht hf
      obtain ⟨-, -, -, hfault, -, hturns, -⟩ := foregroundStep_keeps hx
      have hlegal := foregroundStep_legalMode hm hx
      have hn : op.stepCount = n + 1 := by simpa [State.stepsToFree, hf] using hn
      have hfinished := foregroundStep_finished hx
      obtain ⟨q, u, rfl, hcount⟩ := foregroundStep_stepCount (hbusy op hf) hx
      obtain ⟨hrun, hticks⟩ := ih (by rwa [State.stopped, hfault]) (hturns.trans ht) hlegal
        (foregroundBusy_holdForeground q u) (by rw [stepsToFree_holdForeground]; omega)
      rw [run_succ_of_next hstep, ticksTaken_succ hstep, ha, hrun, hticks, hfinished, finished_of_fore_some hf]
      exact ⟨rfl, rfl⟩

/-! ### The bound on the wait for a tick -/

/-- A well-formed operation has at most fifteen steps to take: before the press of A is applied no reset is under
way. -/
theorem stepCount_le_of_wf {op : Foreground} (h : op.Wf) : op.stepCount ≤ 15 := by
  obtain ⟨-, hnodup, hA, -⟩ := h
  have hlen : op.resetLeft.length ≤ 6 :=
    (List.subperm_of_subset hnodup fun f _ => mem_resetFields f).length_le
  have hlevels := op.levels.isSome.toNat_le
  have hB := op.pressB.toNat_le
  simp only [Foreground.stepCount]
  cases hpA : op.pressA with
  | false => simp only [Bool.toNat_false]; omega
  | true => simp only [hA hpA, List.length_nil, Bool.toNat_true]; omega

theorem State.Inv.foregroundBusy {s : State} (hs : s.Inv) : s.ForegroundBusy := by
  obtain ⟨-, -, -, hop⟩ := hs
  intro op ho
  obtain ⟨⟨hdone, -⟩, -⟩ := hop op ho
  exact hdone

theorem State.Inv.stepsToFree_le {s : State} (hs : s.Inv) : s.stepsToFree ≤ 15 := by
  obtain ⟨-, -, -, hop⟩ := hs
  cases hf : s.fore with
  | none => simp [State.stepsToFree, hf]
  | some op =>
    obtain ⟨hwf, -⟩ := hop op hf
    simpa [State.stepsToFree, hf] using stepCount_le_of_wf hwf

/-- Finishing the operation in progress frees the foreground and leaves the flags, FAULT and the turns as they are. -/
theorem finished_frame (s : State) :
    s.finished.fore = none ∧ s.finished.pend = s.pend ∧ s.finished.ten = s.ten ∧ s.finished.fault = s.fault ∧
      s.finished.turns = s.turns := by
  cases hf : s.fore with
  | none => rw [finished_of_fore_none hf]; exact ⟨hf, rfl, rfl, rfl, rfl⟩
  | some op => rw [finished_of_fore_some hf]; exact ⟨rfl, rfl, rfl, rfl, rfl⟩

/-- With the foreground free, a tick pending and enabled is the next step. -/
theorem ticksTaken_one_of_due {s : State} (hs : s.Free) (hinv : s.Inv) (hp : s.pend = true) (hten : s.ten = true) :
    ticksTaken 1 s = 1 := by
  obtain ⟨t, ht, -⟩ := service_of_inv hinv
  obtain ⟨hstep, ha⟩ := step_tick hs.notStopped hs.turns hs.fore hp hten
  rw [ticksTaken_succ (hstep.trans ht), if_pos ha, ticksTaken]

/-! ### The statements -/

/-- Settles O58: a step completes, and leaves a state of the same kind. -/
theorem runsNeverStop : Obligations.RunsNeverStop := by
  intro k s hs hr hw
  suffices h : ∃ t, Sys2Proof.core.run k s = .next t by
    obtain ⟨t, ht⟩ := h
    exact ⟨t, ht, run_inv hs ht⟩
  induction k generalizing s with
  | zero => exact ⟨s, rfl⟩
  | succ k ih =>
    obtain ⟨t, hstep⟩ := step_completes hs hr hw
    obtain ⟨-, -, -, hfault⟩ := step_keeps hstep
    rw [run_succ_of_next hstep]
    exact ih t (everyStepKeepsTheInvariant.1 s t hs hstep) (hfault ▸ hr)
      fun w hmem => hw w ((step_script hstep).mem hmem)

/-- Settles O60: the operation in progress takes at most fifteen steps, and the tick is the step after it. -/
theorem enabledTickIsTakenSoon : Obligations.EnabledTickIsTakenSoon := by
  intro s hs hr ht hp hten
  have h0 := hs.not_stopped hr
  obtain ⟨hrun, hticks⟩ := run_stepsToFree h0 ht hs.legalMode hs.foregroundBusy rfl
  obtain ⟨hfore, hpend, hten', hfault, hturns⟩ := finished_frame s
  refine ⟨s.stepsToFree + 1, Nat.succ_le_succ hs.stepsToFree_le, ?_⟩
  have hfree : s.finished.Free := ⟨by rwa [State.stopped, hfault], hfore, hturns.trans ht⟩
  rw [ticksTaken_add hrun, hticks, ticksTaken_one_of_due hfree (run_inv hs hrun) (hpend.trans hp) (hten'.trans hten)]

end Sys2Proof.Machine
end

section
/-! The race of a tick with a reset in the modes whose state is one field (70_reset_and_hazards.md R263): one tick as
the mode's advance of that field, and what every step keeps once the field has been reset; then the statement on it. -/

namespace Sys2Proof.Machine

/-! ### One tick of a single-field mode -/

/-- The registers after the tick that MODE selects. -/
theorem ms_of_service {s t : State} {i : Instr} {r : Byte × ModeState} (hi : decodeMode s.mode = .ok i)
    (he : exec i s = .next (completeTick r s)) (h : service s = .next t) : t.ms = r.2 := by
  rw [service_of_decodeMode hi, he] at h
  obtain rfl := Host.Outcome.next.inj h
  rfl

/-- A tick that adds `d` to ACC, as a number. -/
theorem read_acc_of_service {s t : State} {i : Instr} {v d : Byte} (hi : decodeMode s.mode = .ok i)
    (he : exec i s = .next (completeTick (v, s.ms.addAcc d) s)) (h : service s = .next t) :
    t.ms.read .acc = (s.ms.read .acc + d.toNat) % 256 := by
  rw [ms_of_service hi he h]
  exact BitVec.toNat_add s.ms.acc d

/-- The tick of a table counts its index modulo the table's size (R140, R141). -/
theorem read_index_of_service {s t : State} {space : Rom} (hi : decodeMode s.mode = .ok space.tick)
    (hidx : s.ms.read space.index < space.size) (h : service s = .next t) :
    t.ms.read space.index = (s.ms.read space.index + 1) % space.size := by
  obtain ⟨v, hv⟩ := exists_memRead_ok hidx s
  rw [ms_of_service hi (exec_romTick_of_memRead hv) h, read_advanceIndex_self hidx, nextIndex_eq_mod hidx]

/-- A tick in a mode whose state is one field advances that field (R100-R103, R140, R141, R160). -/
theorem read_singleField_of_service {s t : State} {f : ModeField} (hs : s.Inv) (hf : singleField s.mode = some f)
    (h : service s = .next t) : t.ms.read f = fieldAdvance s.mode (s.ms.read f) := by
  obtain ⟨hmode, ⟨-, -, hsnake, hqueue, -⟩, -⟩ := hs
  obtain hm | hm | hm | hm | hm | hm | hm | hm | hm := mode_cases hmode <;> rw [hm] at hf ⊢ <;> cases hf
  · exact read_acc_of_service (hm ▸ decodeMode_inc) (exec_tickInc s) h
  · exact read_acc_of_service (hm ▸ decodeMode_dec) (exec_tickDec s) h
  · exact read_acc_of_service (hm ▸ decodeMode_gray_up) (exec_tickGrayUp s) h
  · exact read_acc_of_service (hm ▸ decodeMode_gray_down) (exec_tickGrayDown s) h
  · exact read_index_of_service (space := .snakeRom) (hm ▸ decodeMode_snake) (Nat.lt_succ_of_le hsnake) h
  · exact read_index_of_service (space := .queueRom) (hm ▸ decodeMode_queue) (Nat.lt_succ_of_le hqueue) h
  · rw [ms_of_service (hm ▸ decodeMode_lfsr) (exec_tickLfsr s) h]
    show (lfsrNext s.ms.lfsr).toNat = (lfsrNext (BitVec.ofNat 6 s.ms.lfsr.toNat)).toNat
    rw [BitVec.ofNat_toNat, BitVec.setWidth_eq]

/-! ### A reaction that has reset the field -/

/-- The operation has no press left to apply, and has reset `f` or has no reset to do. -/
structure Foreground.PastReset (f : ModeField) (op : Foreground) : Prop where
  pressA : op.pressA = false
  pressB : op.pressB = false
  field : f ∉ op.resetLeft

/-- What is put back of an operation is that operation. -/
theorem pastReset_holdForeground {f : ModeField} {op q : Foreground} {s : State} (hop : op.PastReset f)
    (hq : (holdForeground op s).fore = some q) : q.PastReset f := by
  obtain ⟨-, rfl⟩ := holdForeground_fore_eq_some hq
  exact hop

/-- The rest of such an operation leaves MODE and the field alone. -/
theorem foregroundStep_pastReset {f g : ModeField} {op : Foreground} {s t : State} (hop : op.PastReset f)
    (h : foregroundStep g op s = some (.next t)) :
    t.mode = s.mode ∧ t.ms.read f = s.ms.read f ∧ ∀ q, t.fore = some q → q.PastReset f := by
  obtain ⟨hA, hB, hf⟩ := hop
  obtain ⟨hg, rfl⟩ | ⟨-, hA', -⟩ | ⟨-, -, hB', -⟩ | ⟨-, -, -, a, b, -, rfl⟩ | ⟨-, -, -, -, rfl⟩ :=
    foregroundStep_next h
  · exact ⟨rfl, read_resetField_of_ne (ne_of_mem_of_not_mem hg hf).symm s.ms, fun _ =>
      pastReset_holdForeground ⟨hA, hB, mt List.mem_of_mem_erase hf⟩⟩
  · rw [hA] at hA'
    cases hA'
  · rw [hB] at hB'
    cases hB'
  · exact ⟨rfl, rfl, fun _ => pastReset_holdForeground ⟨hA, hB, hf⟩⟩
  · exact ⟨rfl, rfl, fun _ => pastReset_holdForeground ⟨hA, hB, hf⟩⟩

/-- What the run keeps: legal registers, a mode whose state is the field `f`, an operation past the reset of `f` if
there is one, and nothing but expiries to come. -/
structure State.PastRace (f : ModeField) (s : State) : Prop where
  inv : s.Inv
  single : singleField s.mode = some f
  fore : ∀ op, s.fore = some op → op.PastReset f
  script : ∀ w ∈ s.script, w = 0x00#8

/-- With only expiries to come, an event that is delivered is one. -/
theorem eq_expire_of_nextAction {s : State} {i : Instr} (hw : ∀ w ∈ s.script, w = 0x00#8)
    (ha : (nextAction s).1 = .event i) : i = .expire := by
  have hd := decodeEvent_encode (nextAction_event_format ha)
  rw [hw _ ((nextAction_script s).2 i ha), decodeEvent_expire] at hd
  exact (Except.ok.inj hd).symm

/-- A step changes MODE never, the field only if it is a tick, and the operation only to one that is past the reset. -/
theorem step_pastRace_fields {f : ModeField} {s t : State} (hs : s.PastRace f) (h : step s = .next t) :
    t.mode = s.mode ∧
      t.ms.read f = (if (nextAction s).1 = .service then fieldAdvance s.mode (s.ms.read f) else s.ms.read f) ∧
      ∀ q, t.fore = some q → q.PastReset f := by
  obtain ⟨script, turns, e⟩ := nextAction_snd s
  obtain ⟨-, ⟨ha, rfl⟩ | ⟨i, ha, hx⟩ | ⟨ha, hx⟩ | ⟨g, op, ha, hx | rfl⟩⟩ := step_next h <;> rw [ha]
  · rw [e]
    exact ⟨rfl, rfl, hs.fore⟩
  · obtain rfl := eq_expire_of_nextAction hs.script ha
    rw [e] at hx
    obtain rfl := Host.Outcome.next.inj hx
    exact ⟨rfl, rfl, hs.fore⟩
  · rw [e] at hx
    rw [if_pos rfl, read_singleField_of_service (s := { s with script := script, turns := turns }) hs.inv hs.single hx]
    obtain ⟨r, rfl⟩ := service_completes hx
    exact ⟨rfl, rfl, hs.fore⟩
  · rw [e] at hx
    exact foregroundStep_pastReset (s := { s with script := script, turns := turns })
      (hs.fore op (nextAction_foreground ha)) hx
  · rw [e]
    exact ⟨rfl, rfl, hs.fore⟩

theorem step_pastRace {f : ModeField} {s t : State} (hs : s.PastRace f) (h : step s = .next t) : t.PastRace f := by
  obtain ⟨hmode, -, hfore⟩ := step_pastRace_fields hs h
  exact ⟨everyStepKeepsTheInvariant.1 s t hs.inv h, hmode ▸ hs.single, hfore,
    fun w hw => hs.script w ((step_script h).mem hw)⟩

/-- Over a run the field advances once for each tick taken. -/
theorem run_pastRace {k : Nat} {f : ModeField} {s u : State} (hs : s.PastRace f)
    (h : Sys2Proof.core.run k s = .next u) :
    u.mode = s.mode ∧ u.ms.read f = (fieldAdvance s.mode)^[ticksTaken k s] (s.ms.read f) := by
  induction k generalizing s with
  | zero =>
    obtain rfl := Host.Outcome.next.inj h
    exact ⟨rfl, rfl⟩
  | succ k ih =>
    obtain ⟨t, hstep, hrun⟩ := run_succ_next h
    obtain ⟨hmode, hread, -⟩ := step_pastRace_fields hs hstep
    obtain ⟨hmode', hread'⟩ := ih (step_pastRace hs hstep) hrun
    refine ⟨hmode'.trans hmode, ?_⟩
    rw [hread', hread, hmode, ticksTaken_succ hstep, Nat.add_comm, Function.iterate_add_apply]
    split <;> rfl

/-! ### The statement -/

/-- Settles O47: the run keeps `State.PastRace`, and each tick of it is one advance of the field. -/
theorem singleFieldModesRecoverFromTheRace : Obligations.SingleFieldModesRecoverFromTheRace := by
  intro k s t op f hs ho hA hB hsingle hf hw hrun
  refine run_pastRace ⟨hs, hsingle, fun q hq => ?_, hw⟩ hrun
  rw [ho] at hq
  cases hq
  exact ⟨hA, hB, hf⟩

end Sys2Proof.Machine
end

section
/-! Two runs that the spec works out (70_reset_and_hazards.md R263, R272), from the steps they are made of: an expiry and
its tick, and a `RESET_STATES` of either form under the reference schedule (30_encoding.md R71); then the statements on
them. -/

namespace Sys2Proof.Machine

/-! ### Pieces of a run under the reference schedule -/

/-- With no tick due, an expiry is delivered and its tick taken: two steps. -/
theorem run_expire_tick {s t : State} {ws : List Byte} (hs : s.Free) (hp : s.pend = false) (hten : s.ten = true)
    (hw : s.script = 0x00#8 :: ws) (h : service { s with script := ws } = .next t) (k : Nat) :
    Sys2Proof.core.run (k + 2) s = Sys2Proof.core.run k t := by
  obtain ⟨i, hi, he⟩ := service_next h
  have hexpire : step s = .next (setPend { s with script := ws }) :=
    (step_deliver hs.notStopped hs.turns hs.fore (serviceEnabled_eq_false (.inl hp)) hw decodeEvent_expire).1
  have htick : step (setPend { s with script := ws }) = .next t := by
    obtain ⟨hstep, -⟩ := step_tick (s := setPend { s with script := ws }) hs.notStopped hs.turns hs.fore rfl hten
    rw [hstep, service_of_decodeMode (s := setPend { s with script := ws }) hi,
      exec_tick_setPend (format_of_decodeMode hi), he]
  rw [run_succ_of_next hexpire, run_succ_of_next htick]

/-- With nothing to do the state stays, however long one waits. -/
theorem run_idle {s : State} (hs : s.Free) (hq : s.serviceEnabled = false) (hw : s.script = []) (k : Nat) :
    Sys2Proof.core.run k s = .next s := by
  obtain ⟨hstep, -⟩ := step_idle hs.notStopped hs.turns hs.fore hq hw
  induction k with
  | zero => rfl
  | succ k ih => rw [run_succ_of_next hstep, ih]

/-- With no tick due, a `RESET_STATES` of either form has reset ModeState after at most seven steps, and changed nothing
else. -/
theorem exists_run_resetStates {s : State} {ws : List Byte} (hs : s.Free) (hq : s.serviceEnabled = false)
    (hm : legalMode s.mode = true) (hw : s.script = 0x80#8 :: ws) :
    ∃ j ≤ 7, Sys2Proof.core.run j s = .next { s with ms := ModeState.initial, script := ws } := by
  obtain ⟨hdeliver, -⟩ := step_deliver hs.notStopped hs.turns hs.fore hq hw decodeEvent_resetStates
  cases hp : s.params.atomicModeChange with
  | true =>
    rw [exec_resetStates_of_oneStep (s := { s with script := ws }) hp] at hdeliver
    exact ⟨1, by decide, run_succ_of_next hdeliver⟩
  | false =>
    rw [exec_resetStates_of_split (s := { s with script := ws }) hp] at hdeliver
    have hbusy : State.ForegroundBusy { s with script := ws, fore := some startupOperation } := by
      rintro op ⟨⟩
      rfl
    obtain ⟨hrun, -⟩ := run_stepsToFree (n := 6) (s := { s with script := ws, fore := some startupOperation })
      hs.notStopped hs.turns hm hbusy rfl
    refine ⟨7, le_rfl, ?_⟩
    rw [run_succ_of_next hdeliver, hrun, finished_of_fore_some rfl]
    simp only [Foreground.finish, startupOperation, ← hs.fore]
    rfl

/-! ### Power-on with a tick before the startup reset -/

/-- After `TICK_ENABLE` and a tick, with the startup `RESET_STATES` and an expiry to come (R272). -/
def bootedWithTick (p : Params) (snake : Vector Byte 11) (queue : Vector Byte 35) : State :=
  { State.resetWith p snake queue with
    ten := true, out := some 0x00#8, ms := { ModeState.initial with acc := 1#8 }, script := [0x80#8, 0x00#8] }

theorem free_bootedWithTick (p : Params) (snake : Vector Byte 11) (queue : Vector Byte 35) :
    (bootedWithTick p snake queue).Free :=
  ⟨rfl, rfl, rfl⟩

/-- The tick of mode 1 from the reset ModeState outputs 0x00 and leaves ACC = 1 (R100). -/
theorem service_inc_of_initial {s : State} (hm : s.mode = 1#8) (hms : s.ms = ModeState.initial) :
    service s =
      .next { s with ms := { ModeState.initial with acc := 1#8 }, out := some 0x00#8, pend := false } := by
  rw [service_of_decodeMode (hm ▸ decodeMode_inc), exec_tickInc, hms]
  rfl

/-- The first three steps from power-on. -/
theorem run_bootedWithTick (p : Params) (snake : Vector Byte 11) (queue : Vector Byte 35) (k : Nat) :
    Sys2Proof.core.run (k + 3)
        { State.resetWith p snake queue with script := [0xC1#8, 0x00#8, 0x80#8, 0x00#8] } =
      Sys2Proof.core.run k (bootedWithTick p snake queue) := by
  have henable : step { State.resetWith p snake queue with script := [0xC1#8, 0x00#8, 0x80#8, 0x00#8] } =
      .next { State.resetWith p snake queue with ten := true, script := [0x00#8, 0x80#8, 0x00#8] } :=
    (step_deliver (s := { State.resetWith p snake queue with script := [0xC1#8, 0x00#8, 0x80#8, 0x00#8] })
      rfl rfl rfl rfl rfl decodeEvent_tickEnable).1
  rw [run_succ_of_next henable]
  exact run_expire_tick ⟨rfl, rfl, rfl⟩ rfl rfl rfl (service_inc_of_initial rfl rfl) k

/-- The startup reset and the tick after it end in the same output and ModeState again, whichever the form, and then
the state stays. -/
theorem run_after_bootedWithTick (p : Params) (snake : Vector Byte 11) (queue : Vector Byte 35) :
    Sys2Proof.core.run 9 (bootedWithTick p snake queue) = .next { bootedWithTick p snake queue with script := [] } := by
  have hfree := free_bootedWithTick p snake queue
  obtain ⟨j, hj, hreset⟩ := exists_run_resetStates hfree rfl rfl rfl
  have htick := run_expire_tick
    (s := { bootedWithTick p snake queue with ms := ModeState.initial, script := [0x00#8] })
    ⟨rfl, rfl, rfl⟩ rfl rfl rfl (service_inc_of_initial rfl rfl) (7 - j)
  have hsteps : 9 = j + (7 - j + 2) := by omega
  rw [hsteps, run_add_of_next hreset, htick]
  exact run_idle ⟨rfl, rfl, rfl⟩ rfl rfl (7 - j)

/-! ### The race in mode 6 -/

/-- The tick of mode 6, by the digits it leaves (R121, R124). -/
theorem service_bcdDown {s : State} {tens units : Nibble} (hm : s.mode = 6#8)
    (hd : bcdDownDigits s.ms = { s.ms with bcdT := tens, bcdU := units }) :
    service s =
      .next { s with
        ms := { s.ms with bcdT := tens, bcdU := units }, out := some (bcd tens units), pend := false } := by
  rw [service_of_decodeMode (hm ▸ decodeMode_bcd_down), exec_tickBcdDown, bcdTick, hd]
  rfl

/-- R121 from the digits (9, 0): a borrow. -/
theorem bcdDownDigits_of_90 {ms : ModeState} (ht : ms.bcdT = 9#4) (hu : ms.bcdU = 0#4) :
    bcdDownDigits ms = { ms with bcdT := 8#4, bcdU := 9#4 } := by
  simp [bcdDownDigits, ht, hu]

/-- R121 from the digits (0, 9): no borrow. -/
theorem bcdDownDigits_of_09 {ms : ModeState} (ht : ms.bcdT = 0#4) (hu : ms.bcdU = 9#4) :
    bcdDownDigits ms = { ms with bcdT := 0#4, bcdU := 8#4 } := by
  rw [bcdDownDigits, hu, if_neg (by decide), ← ht]
  rfl

/-- The reaction of R263's example: ACC and BCD_U are reset, the other fields and the levels remain. -/
def raceOperation : Foreground :=
  { levels := some (false, true), pressA := false, pressB := false, resetLeft := [.bcdT, .snakeIdx, .queueIdx, .lfsr] }

/-- After the tick inside the reset. -/
def afterRaceTick (s : State) : State :=
  { s with turns := [], ms := { s.ms with bcdT := 8#4, bcdU := 9#4 }, out := some (bcd 8#4 9#4), pend := false }

/-! ### The statements -/

/-- Settles O50: three steps to `bootedWithTick`, and nine from there. -/
theorem tickBeforeStartupResetIsHarmless : Obligations.TickBeforeStartupResetIsHarmless := fun p snake queue =>
  ⟨⟨_, run_bootedWithTick p snake queue 0, rfl, rfl⟩,
    _, (run_bootedWithTick p snake queue 9).trans (run_after_bootedWithTick p snake queue), rfl, rfl, rfl⟩

/-- Settles O46: the tick inside the reset, the five steps that end the reaction, and the expiry with its tick. -/
theorem raceLeavesBcdDigitsThatRunOn : Obligations.RaceLeavesBcdDigitsThatRunOn := by
  intro s h0 hm hu htens hp hten hf hturns hw
  have htick : step s = .next (afterRaceTick s) :=
    (step_tick_turn h0 hturns hp hten).trans
      (service_bcdDown (s := { s with turns := [] }) hm (bcdDownDigits_of_90 htens hu))
  have hfore : (afterRaceTick s).fore = some raceOperation := hf
  have hbusy : (afterRaceTick s).ForegroundBusy := fun _ ho => Option.some.inj (hfore.symm.trans ho) ▸ rfl
  have hcount : (afterRaceTick s).stepsToFree = 5 := by rw [State.stepsToFree, hfore]; rfl
  have hlegal : legalMode (afterRaceTick s).mode = true := (legalMode_iff _).2 (by simp [afterRaceTick, hm])
  obtain ⟨hrest, -⟩ := run_stepsToFree (s := afterRaceTick s) h0 rfl hlegal hbusy hcount
  rw [finished_of_fore_some hfore] at hrest
  have hfree : (raceOperation.finish (afterRaceTick s)).Free := ⟨h0, rfl, rfl⟩
  have hlast := run_expire_tick hfree rfl hten hw (service_bcdDown hm (bcdDownDigits_of_09 rfl rfl)) 0
  have hsix : Sys2Proof.core.run 6 s = .next (raceOperation.finish (afterRaceTick s)) :=
    (run_succ_of_next htick).trans hrest
  exact ⟨⟨_, run_succ_of_next htick, rfl⟩, ⟨_, hsix, rfl, rfl, rfl⟩, _, (run_add_of_next hsix 2).trans hlast, rfl⟩

end Sys2Proof.Machine
end

section
/-! The flags PEND and TEN and power-on (60_exceptions.md R223, R225, 70_reset_and_hazards.md R260, R261): what each
step does to the two flags, and what `HWRESET` leaves; then the statements on these. -/

namespace Sys2Proof.Machine

/-! ### The writers of PEND and TEN -/

/-- Four events write a flag, each as its own operation does; a poll and a `RESET_STATES` write neither (R223,
R225). -/
theorem exec_event_flags {i : Instr} {s t : State} (hi : i.format = .event) (h : exec i s = .next t) :
    (i = .expire ∧ t = setPend s) ∨ (i = .tickEnable ∧ t = setTen true s) ∨ (i = .tickDisable ∧ t = setTen false s) ∨
      (i = .hwReset ∧ t = powerOn s) ∨ (t.pend = s.pend ∧ t.ten = s.ten) := by
  cases i <;> simp only [Instr.format, reduceCtorEq] at hi
  case expire => exact .inl ⟨rfl, (Host.Outcome.next.inj h).symm⟩
  case tickEnable => exact .inr (.inl ⟨rfl, (Host.Outcome.next.inj h).symm⟩)
  case tickDisable => exact .inr (.inr (.inl ⟨rfl, (Host.Outcome.next.inj h).symm⟩))
  case hwReset => exact .inr (.inr (.inr (.inl ⟨rfl, (Host.Outcome.next.inj h).symm⟩)))
  case poll a b =>
    obtain ⟨-, -, -, hp, hten, -⟩ := pollReaction_frame a b s
    rw [execPoll_next h]
    split
    · exact .inr (.inr (.inr (.inr ⟨hp, hten⟩)))
    · exact .inr (.inr (.inr (.inr ⟨rfl, rfl⟩)))
  case resetStates =>
    obtain rfl := Host.Outcome.next.inj h
    split <;> exact .inr (.inr (.inr (.inr ⟨rfl, rfl⟩)))

/-- A step that is a tick clears PEND (R81), and writes TEN never. -/
theorem step_service_flags {s t : State} (h : step s = .next t) (ha : (nextAction s).1 = .service) :
    t.pend = false ∧ t.ten = s.ten := by
  obtain ⟨h0, -⟩ := step_next h
  obtain ⟨_, _, e⟩ := nextAction_snd s
  rw [step_of_not_stopped h0, ha] at h
  obtain ⟨r, rfl⟩ := service_completes h
  simp [e]

/-- What a step does to the two flags: a tick, `EXPIRE`, the two writers of TEN, `HWRESET`; and any other step keeps
both. -/
theorem step_flags {s t : State} (h : step s = .next t) :
    ((nextAction s).1 = .service ∧ t.pend = false ∧ t.ten = s.ten) ∨
    ((nextAction s).1 = .event .expire ∧ t.pend = true ∧ t.ten = s.ten) ∨
    (((nextAction s).1 = .event .tickEnable ∨ (nextAction s).1 = .event .tickDisable) ∧ t.pend = s.pend) ∨
    ((nextAction s).1 = .event .hwReset ∧ t.pend = false) ∨
    (t.pend = s.pend ∧ t.ten = s.ten) := by
  obtain ⟨_, _, e⟩ := nextAction_snd s
  have hkept : (nextAction s).2.pend = s.pend ∧ (nextAction s).2.ten = s.ten := by simp [e]
  obtain ⟨hpend, hten⟩ := hkept
  obtain ⟨-, ⟨-, rfl⟩ | ⟨i, ha, hx⟩ | ⟨ha, -⟩ | ⟨f, op, -, hx | rfl⟩⟩ := step_next h
  · exact .inr (.inr (.inr (.inr ⟨hpend, hten⟩)))
  · obtain ⟨rfl, rfl⟩ | ⟨rfl, rfl⟩ | ⟨rfl, rfl⟩ | ⟨rfl, rfl⟩ | ⟨hp, ht⟩ :=
      exec_event_flags (nextAction_event_format ha) hx
    · exact .inr (.inl ⟨ha, rfl, hten⟩)
    · exact .inr (.inr (.inl ⟨.inl ha, hpend⟩))
    · exact .inr (.inr (.inl ⟨.inr ha, hpend⟩))
    · exact .inr (.inr (.inr (.inl ⟨ha, rfl⟩)))
    · exact .inr (.inr (.inr (.inr ⟨hp.trans hpend, ht.trans hten⟩)))
  · exact .inl ⟨ha, step_service_flags h ha⟩
  · obtain ⟨-, -, -, -, -, -, hp, ht, -⟩ := foregroundStep_keeps hx
    exact .inr (.inr (.inr (.inr ⟨hp.trans hpend, ht.trans hten⟩)))
  · exact .inr (.inr (.inr (.inr ⟨hpend, hten⟩)))

/-! ### Power-on -/

theorem exec_hwReset (s : State) : exec .hwReset s = .next (powerOn s) := rfl

/-- Power-on with FAULT empty and nothing to come leaves the initial state of the block (R261). -/
theorem powerOn_eq_resetWith {s : State} (h0 : s.stopped = false) (hw : s.script = []) (ht : s.turns = []) :
    powerOn s = State.resetWith s.params s.snakeRom s.queueRom := by
  simp only [powerOn, State.resetWith, fault_of_not_stopped h0, hw, ht]

/-! ### The statements -/

/-- Settles O51: the cases of `step_flags`, in each of which the clauses that it does not meet have no premise. -/
theorem pendAndTenHaveTheirWriters : Obligations.PendAndTenHaveTheirWriters := by
  intro s t h
  have hclear := fun ha => (step_service_flags h ha).1
  obtain ⟨ha, hp, hten⟩ | ⟨ha, hp, hten⟩ | ⟨ha, hp⟩ | ⟨ha, hp⟩ | ⟨hp, hten⟩ := step_flags h
  · exact ⟨fun _ ht => by simp [hp] at ht, fun _ _ => .inl ha, hclear, fun hne => absurd hten hne⟩
  · exact ⟨fun _ _ => ha, fun _ ht => by simp [hp] at ht, hclear, fun hne => absurd hten hne⟩
  · exact ⟨fun hs ht => by simp [hp, hs] at ht, fun hs ht => by simp [hp, hs] at ht, hclear,
      fun _ => ha.imp_right .inl⟩
  · exact ⟨fun _ ht => by simp [hp] at ht, fun _ _ => .inr ha, hclear, fun _ => .inr (.inr ha)⟩
  · exact ⟨fun hs ht => by simp [hp, hs] at ht, fun hs ht => by simp [hp, hs] at ht, hclear,
      fun hne => absurd hten hne⟩

/-- Settles O33: the words' rows, and the one write of `setTen`. -/
theorem tickEnableAndDisableWriteTen : Obligations.TickEnableAndDisableWriteTen :=
  ⟨decodeEvent_tickEnable, decodeEvent_tickDisable, fun _ => ⟨rfl, rfl⟩⟩

/-- Settles O48: `HWRESET` is `powerOn`, and it waits for no foreground operation. -/
theorem hwResetWritesTheResetTable : Obligations.HwResetWritesTheResetTable :=
  ⟨decodeEvent_hwReset,
    fun s => ⟨powerOn s, exec_hwReset s, rfl, rfl, rfl, rfl, rfl, rfl, rfl, rfl, rfl, rfl, rfl, rfl, rfl,
      ⟨rfl, memRead_congr rfl rfl⟩, rfl, rfl, rfl⟩,
    fun s _ _ h0 ht hw => step_environment_turn h0 ht hw decodeEvent_hwReset ((eventEnabled_iff _ s).2 (.inl rfl))⟩

/-- Settles O49: `powerOn_eq_resetWith`; and an entry of a table of `State.reset` is the constant it was made from. -/
theorem initialStateIsTheStateAfterHwReset : Obligations.InitialStateIsTheStateAfterHwReset := by
  refine ⟨fun s h0 hw ht => ?_, rfl, fun i => ?_, fun i => ?_, rfl⟩
  · rw [exec_hwReset, powerOn_eq_resetWith h0 hw ht]
  · rw [memRead_snakeRom, dif_pos i.isLt]
    exact congrArg Except.ok (Vector.getElem_ofFn i.isLt)
  · rw [memRead_queueRom, dif_pos i.isLt]
    exact congrArg Except.ok (Vector.getElem_ofFn i.isLt)

end Sys2Proof.Machine
end
